-- ==== Sys2Proof/Word.lean ====
section
/-! DEFINITION. The bit-vector types of the block: a buffer byte (R25), a data word on `din`/`dout` (R26),
a command word (R60). Every quantity is unsigned (R6). -/

namespace Sys2Proof

/-- A byte of the wire buffer (R25). -/
abbrev Byte := BitVec 8

/-- A value on the 32-bit data ports `din` and `dout` (R26). -/
abbrev Word := BitVec 32

/-- A 16-bit command word `cmd[15:0]` (R60). -/
abbrev CmdWord := BitVec 16

end Sys2Proof
end

