-- ==== Sys2Proof/Syntax.lean ====
section
/-! DEFINITION. The ten commands of R62, one constructor per row of the opcode table, with the operands of R61, R63. -/

namespace Sys2Proof

/-- The four names of the record registers `r[0]` to `r[3]` (R21, R22, R68); `r[4]` and above do not exist (R23). -/
inductive Reg where
  | tag | ctxId | dcnAdr | tcpId
deriving DecidableEq, Repr

/-- A command with the operands of its word. The data operand travels on `din`, beside the word (R60, R64). -/
inductive Instr where
  /-- CLR (R114) -/
  | clr
  /-- TAG (R115) -/
  | tag
  /-- PACK boff, W (R89): `boff` is the field `a`, `w` the width in bits as given, unscaled (R63) -/
  | pack (boff : BitVec 4) (w : BitVec 6)
  /-- UNPACK boff, W (R104) -/
  | unpack (boff : BitVec 4) (w : BitVec 6)
  /-- ENCODE (R116) -/
  | encode
  /-- DECODE (R117) -/
  | decode
  /-- WRR reg (R140) -/
  | wrr (reg : Reg)
  /-- RDR reg (R141) -/
  | rdr (reg : Reg)
  /-- WRB addr (R142): the address as given; 11 to 15 fault RANGE when run -/
  | wrb (addr : BitVec 4)
  /-- RDB addr (R143) -/
  | rdb (addr : BitVec 4)
deriving DecidableEq, Repr

end Sys2Proof
end

