-- ==== Sys2Proof/WellFormed.lean ====
section
/-! DEFINITION. Which terms of `Instr` are legal commands (R65). A PACK or UNPACK with any width and offset and a WRB or
RDB with any address is a legal word (it can still fault when run, R65); RDR of any named register is legal; the one
term that is not is WRR of `r[0]`, which is read-only (R21, R65 (e)). -/

namespace Sys2Proof

/-- The instruction is a legal command (R65): every operand form but WRR TAG. -/
def Instr.wellFormed : Instr → Bool
  | .clr => true
  | .tag => true
  | .pack _ _ => true
  | .unpack _ _ => true
  | .encode => true
  | .decode => true
  | .wrr .tag => false
  | .wrr .ctxId => true
  | .wrr .dcnAdr => true
  | .wrr .tcpId => true
  | .rdr _ => true
  | .wrb _ => true
  | .rdb _ => true

end Sys2Proof
end

