-- ==== Sys2Proof/Decode.lean ====
section
/-! DEFINITION. The command word (R60 to R67): its fields, the decoder, total on the 65536 words, and the encoder, both
written from the tables of R61 and R62. A word that is no command is refused under the name of the clause of R65 it
breaks; all of them fault with cause ILLCMD when presented (R155). WRR of register 0 is read as the command it
spells and raises ILLCMD in its own meaning, where R140 tests it (log entry 9). -/

namespace Sys2Proof

/-- Why a word is no command (the clauses of R65). The names are the model's (log entry 10). -/
inductive Illegal where
  /-- `op` is 0x0 or 0xB to 0xF: R65 (a) -/
  | reservedOp
  /-- `z != 0`: R65 (b) -/
  | reservedBits
  /-- an `a` or `w` the format does not use is not zero: R65 (c), (d) -/
  | unusedField
  /-- WRR or RDR of a register above 3: R65 (e), (f) -/
  | noSuchRegister
deriving DecidableEq, Repr

/-- `op`, bits 15:12 (R61). -/
def opField (cmd : CmdWord) : BitVec 4 := cmd.extractLsb' 12 4
/-- `a`, bits 11:8 (R61). -/
def aField (cmd : CmdWord) : BitVec 4 := cmd.extractLsb' 8 4
/-- `z`, bits 7:6, reserved (R61). -/
def zField (cmd : CmdWord) : BitVec 2 := cmd.extractLsb' 6 2
/-- `w`, bits 5:0 (R61). -/
def wField (cmd : CmdWord) : BitVec 6 := cmd.extractLsb' 0 6

/-- The register an index names; 4 and above name none (R22, R23). -/
def regOfIndex (a : BitVec 4) : Option Reg :=
  match a.toNat with
  | 0 => some .tag
  | 1 => some .ctxId
  | 2 => some .dcnAdr
  | 3 => some .tcpId
  | _ => none

/-- The index of a register (R22). -/
def indexOfReg : Reg → BitVec 4
  | .tag => 0
  | .ctxId => 1
  | .dcnAdr => 2
  | .tcpId => 3

/-- Format Z (R61): no operand; `a`, `z` and `w` must be zero. -/
def decodeFormatZ (cmd : CmdWord) (i : Instr) : Except Illegal Instr :=
  if zField cmd ≠ 0 then .error .reservedBits
  else if aField cmd ≠ 0 ∨ wField cmd ≠ 0 then .error .unusedField
  else .ok i

/-- Format F (R61): `a` and `w` are operands; `z` must be zero. -/
def decodeFormatF (cmd : CmdWord) (mk : BitVec 4 → BitVec 6 → Instr) : Except Illegal Instr :=
  if zField cmd ≠ 0 then .error .reservedBits
  else .ok (mk (aField cmd) (wField cmd))

/-- Format A (R61) with a buffer address: `z` and `w` must be zero. -/
def decodeFormatA (cmd : CmdWord) (mk : BitVec 4 → Instr) : Except Illegal Instr :=
  if zField cmd ≠ 0 then .error .reservedBits
  else if wField cmd ≠ 0 then .error .unusedField
  else .ok (mk (aField cmd))

/-- Format A (R61) with a register index: as with an address, and the register must exist. -/
def decodeFormatR (cmd : CmdWord) (mk : Reg → Instr) : Except Illegal Instr :=
  if zField cmd ≠ 0 then .error .reservedBits
  else if wField cmd ≠ 0 then .error .unusedField
  else
    match regOfIndex (aField cmd) with
    | some r => .ok (mk r)
    | none => .error .noSuchRegister

/-- The decoder (R62, R65, R67): it reads the word alone. -/
def decodeWord (cmd : CmdWord) : Except Illegal Instr :=
  match (opField cmd).toNat with
  | 0x1 => decodeFormatZ cmd .clr
  | 0x2 => decodeFormatZ cmd .tag
  | 0x3 => decodeFormatF cmd .pack
  | 0x4 => decodeFormatF cmd .unpack
  | 0x5 => decodeFormatZ cmd .encode
  | 0x6 => decodeFormatZ cmd .decode
  | 0x7 => decodeFormatR cmd .wrr
  | 0x8 => decodeFormatR cmd .rdr
  | 0x9 => decodeFormatA cmd .wrb
  | 0xA => decodeFormatA cmd .rdb
  | _ => .error .reservedOp

/-- The word is a legal command (R65): it decodes to a well-formed instruction. -/
def legalWord (cmd : CmdWord) : Bool :=
  match decodeWord cmd with
  | .ok i => i.wellFormed
  | .error _ => false

/-- `decodeWord` on a word given as the opcode table numbers its bits; every command word is 16 bits (R60), so a
number that does not fit is no command word. -/
def decodeTableWord (nbits w : Nat) : Option Instr :=
  if w % 2 ^ nbits < 2 ^ 16 then
    match decodeWord (BitVec.ofNat 16 (w % 2 ^ nbits)) with
    | .ok i => some i
    | .error _ => none
  else none

/-- The operation code of a command (R62). -/
def opcodeOf : Instr → BitVec 4
  | .clr => 0x1
  | .tag => 0x2
  | .pack _ _ => 0x3
  | .unpack _ _ => 0x4
  | .encode => 0x5
  | .decode => 0x6
  | .wrr _ => 0x7
  | .rdr _ => 0x8
  | .wrb _ => 0x9
  | .rdb _ => 0xA

/-- The field `a` of a command (R61, R68). -/
def aOperand : Instr → BitVec 4
  | .pack boff _ => boff
  | .unpack boff _ => boff
  | .wrr r => indexOfReg r
  | .rdr r => indexOfReg r
  | .wrb addr => addr
  | .rdb addr => addr
  | .clr => 0
  | .tag => 0
  | .encode => 0
  | .decode => 0

/-- The field `w` of a command (R61, R68). -/
def wOperand : Instr → BitVec 6
  | .pack _ w => w
  | .unpack _ w => w
  | .clr => 0
  | .tag => 0
  | .encode => 0
  | .decode => 0
  | .wrr _ => 0
  | .rdr _ => 0
  | .wrb _ => 0
  | .rdb _ => 0

/-- The encoder: the word of a command, laid out `op a z w` (R61, R62). -/
def encodeWord (i : Instr) : CmdWord := opcodeOf i ++ aOperand i ++ 0#2 ++ wOperand i

end Sys2Proof
end

