-- ==== Sys2Proof/Config.lean ====
section
/-! DEFINITION. The parameters of R5 that the model uses, as named constants, and the model's only free values: the
contents the record registers take at a reset request (R22, R180, D15), which the spec leaves unspecified. -/

namespace Sys2Proof.Config

/-- BUF_BYTES (R5): bytes in the wire buffer; addresses 0 to 10 exist (R40). -/
def bufBytes : Nat := 11

/-- VALUE_BITS (R5): the width of `din` and `dout`; no admitted field is wider. -/
def valueBits : Nat := 32

/-- TAG_VALUE (R5): the constant tag `0b0010`, which is `r[0]` (R21). -/
def tagValue : BitVec 4 := 0b0010

/-- What `r[1]` holds after the `n`-th reset request: any 16-bit value (R22, D15). Log entry 2. -/
opaque resetCtxId : Nat → BitVec 16

/-- What `r[2]` holds after the `n`-th reset request: any 32-bit value (R22, D15). Log entry 2. -/
opaque resetDcnAdr : Nat → BitVec 32

/-- What `r[3]` holds after the `n`-th reset request: any 32-bit value (R22, D15). Log entry 2. -/
opaque resetTcpId : Nat → BitVec 32

end Sys2Proof.Config
end

