-- ==== Sys2Proof/Machine/State.lean ====
section
/-! DEFINITION. The state of one instance of the block (R20): the record registers, the wire buffer, the fault register
and the sequencer's cursor; beside them the ports and the host's remaining moves (R17, R26), which the model holds
in State because a step is a function of State alone. Plain data throughout. -/

namespace Sys2Proof.Machine

/-- No constructor: no command of this block stops the model with a fault. The four causes of the spec (R152 to R155)
are events the block goes on from: taking one is a next state (R156), so stopping on one would be a gap. -/
inductive Fault where
deriving DecidableEq, Repr

/-- Why the model gives an instruction no meaning. -/
inductive Refusal where
  /-- Raised by `exec`'s arm of an instruction that has no meaning yet; safe. No arm of this model raises it. -/
  | notModelled (mnemonic : String)
deriving DecidableEq, Repr

/-- The causes of a fault (R151 to R155). -/
inductive Cause where
  /-- R152: the width is zero or no multiple of 4 -/
  | width
  /-- R153: the field or the byte lies outside the buffer -/
  | range
  /-- R154: a multiple of 4 that is no multiple of 8, or above 32 -/
  | unsup
  /-- R155: the word is no legal command -/
  | illcmd
deriving DecidableEq, Repr

/-- What a command answers on `status[2:0]` and `dout[31:0]` (R14, R70). -/
structure Response where
  status : BitVec 3
  dout : Word
deriving DecidableEq, Repr

/-- One thing the host may do at a command boundary (R26, R180, R184). -/
inductive HostMove where
  /-- present a command word and, beside it, a data operand -/
  | command (cmd : CmdWord) (din : Word)
  /-- request a reset on `rst` -/
  | reset
deriving DecidableEq, Repr

/-- The wire buffer's memory: the (address, byte) pairs of its non-zero bytes, addresses rising. An address that is not
listed reads as `Memory.unlisted`. Log entry 7. -/
abbrev Memory := List Host.Cell

/-- What an address that is not listed reads as: 0x00, the reset content of every byte (R25). -/
def Memory.unlisted : Byte := 0x00

structure State where
  /-- `r[1]`, CTX_ID (R22) -/
  ctxId : BitVec 16
  /-- `r[2]`, DCN_ADR (R22) -/
  dcnAdr : BitVec 32
  /-- `r[3]`, TCP_ID (R22) -/
  tcpId : BitVec 32
  /-- `buf[0..10]` (R25, R40) -/
  buf : Memory
  /-- the fault register (R27) -/
  flt : BitVec 3
  /-- the sequencer's field index `seq.fi` (R30) -/
  fi : BitVec 2
  /-- the sequencer's nibble offset `seq.noff` (R30) -/
  noff : BitVec 5
  /-- the moves the host has still to make, oldest first (R17; log entry 3) -/
  host : List HostMove
  /-- what stands on the port `din` for the command being run (R26; log entry 6) -/
  din : Word
  /-- the answer of the latest command, none before the first (R26; log entry 5) -/
  answer : Option Response
  /-- how many reset requests have been taken: the index of the free values (log entry 2) -/
  resets : Nat
deriving DecidableEq, Repr

/-- The block after power-on, which is a reset (R180, R181): the buffer zero (R25), no fault (R27), the cursor at
(0, 0) (R30), idle. The spec gives `r[1..3]` no reset value (R22); the zeros are the model's (DESIGN CHOICE,
log entry 1), and so are the ports' values (log entries 3, 5, 6). -/
def State.reset : State :=
  { ctxId := 0, dcnAdr := 0, tcpId := 0
    buf := []
    flt := 0
    fi := 0, noff := 0
    host := [], din := 0, answer := none
    resets := 0 }

end Sys2Proof.Machine
end

