-- ==== Sys2Proof/Machine/Flags.lean ====
section
/-! DEFINITION. The block has no condition flags (R89); its one status register is `flt` (R27). This file holds the status
and cause codes of R151 and the two views of `flt`: halted or not (R157), and the port `flt_o` (R26). -/

namespace Sys2Proof.Machine

/-- The code of a cause, the same in `flt` and on `status` (R151). -/
def Cause.code : Cause → BitVec 3
  | .width => 1
  | .range => 2
  | .unsup => 3
  | .illcmd => 4

/-- Status OK (R151). -/
def statusOk : BitVec 3 := 0

/-- Status HALTED (R151, R157). -/
def statusHalted : BitVec 3 := 7

/-- The block is halted while `flt != 0` (R157). -/
def State.halted (s : State) : Bool := s.flt != 0

/-- The output port `flt_o`, which continuously shows `flt` (R26). -/
def State.fltO (s : State) : BitVec 3 := s.flt

end Sys2Proof.Machine
end

