-- ==== Sys2Proof/Machine/Ops.lean ====
section
/-! DEFINITION. The shared operations: one byte of the wire buffer (R10, R40), the record registers (R21, R22), the
big-endian byte sequence (R11), the closed-form views (R8, R12, R13), answering a command (R14), taking a fault (R156),
the order of tests every command follows (R158), a reset request (R180) and the host's next move (R17, R26). -/

namespace Sys2Proof.Machine

/-! ### The wire buffer -/

/-- `buf[a]` (R10). -/
def Memory.read : Memory → Nat → Byte
  | [], _ => Memory.unlisted
  | c :: rest, a => if c.1 = a then c.2 else Memory.read rest a

/-- Put a byte before the first cell of a higher address. -/
def Memory.insertCell (a : Nat) (b : Byte) : Memory → Memory
  | [] => [(a, b)]
  | c :: rest => if a < c.1 then (a, b) :: c :: rest else c :: Memory.insertCell a b rest

/-- `buf[a] <- b` (R10), keeping the canonical form: a byte equal to what an unlisted address reads as is not listed. -/
def Memory.write (m : Memory) (a : Nat) (b : Byte) : Memory :=
  let others := m.filter fun c => c.1 != a
  if b = Memory.unlisted then others else Memory.insertCell a b others

/-- Eleven bytes 0x00 (R112, R114). -/
def Memory.zero : Memory := []

/-- The canonical form: addresses strictly rising, all of them addresses that exist (R40), no unlisted byte listed. -/
abbrev Memory.wf (m : Memory) : Prop :=
  m.Pairwise (fun c d => c.1 < d.1) ∧ ∀ c ∈ m, c.1 < Config.bufBytes ∧ c.2 ≠ Memory.unlisted

/-- Wire bit `n` of the buffer: bit `n mod 8` of byte `n div 8` (R8). -/
def Memory.wireBit (m : Memory) (n : Nat) : Bool := (m.read (n / 8)).getLsbD (n % 8)

/-- The sum of `buf[a] << (8a)` over the addresses below `k` (R13). -/
def Memory.bufintBelow (m : Memory) : Nat → BitVec 88
  | 0 => 0
  | k + 1 => Memory.bufintBelow m k + (((m.read k).setWidth 88) <<< (8 * k))

/-- `BUFINT(buf)`: the buffer as one 88-bit number (R13). -/
def Memory.bufint (m : Memory) : BitVec 88 := Memory.bufintBelow m Config.bufBytes

/-! ### Big-endian byte sequences -/

/-- `be_bytes(v, N)`: `dc[k] = (v >> (8 * (N-1-k))) & 0xFF`, the most significant byte first (R11; log entry 11). -/
def beBytes (v : Word) (n : Nat) : List Byte :=
  (List.range n).map fun k => (v >>> (8 * (n - 1 - k))).setWidth 8

/-- `from_be(dc, N)`: the sum over k of `dc[k] << (8 * (N-1-k))` (R11). -/
def fromBe : List Byte → Word
  | [] => 0
  | b :: rest => (b.setWidth 32 <<< (8 * rest.length)) + fromBe rest

/-- `bswap_N(v)`: `v` with the order of its N bytes reversed (R12). -/
def bswap (n : Nat) (v : Word) : Word := fromBe (beBytes v n).reverse

/-! ### The record registers -/

/-- `r[i]`, zero-extended to 32 bits (R141, D28). `r[0]` is hardwired to the tag (R21). -/
def readReg (r : Reg) (s : State) : Word :=
  match r with
  | .tag => Config.tagValue.setWidth 32
  | .ctxId => s.ctxId.setWidth 32
  | .dcnAdr => s.dcnAdr
  | .tcpId => s.tcpId

/-- `r[i] <- v`: CTX_ID takes `v[15:0]` (R140); a write to the hardwired `r[0]` changes nothing (R21). -/
def writeReg (r : Reg) (v : Word) (s : State) : State :=
  match r with
  | .tag => s
  | .ctxId => { s with ctxId := v.setWidth 16 }
  | .dcnAdr => { s with dcnAdr := v }
  | .tcpId => { s with tcpId := v }

/-! ### Answers, faults, the order of tests -/

/-- `return OK(v)` (R14); `return OK` is `v = 0` (D16). -/
def answerOk (v : Word) (s : State) : State := { s with answer := some ⟨statusOk, v⟩ }

/-- The refusal of a command while the block is halted (R157): nothing changes but the answer. -/
def answerHalted (s : State) : State := { s with answer := some ⟨statusHalted, 0⟩ }

/-- Fault entry, `raise <Cause>` (R156): `flt` takes the cause's code, the command answers the code and 0, and no other
state changes. There is no handler, and no return but reset (R160). -/
def raise (c : Cause) (s : State) : State := { s with flt := c.code, answer := some ⟨c.code, 0⟩ }

/-- A command (R158): halted is tested first and answered HALTED; then the command's own tests and effect, `run`, which
answers the state it leaves and its `dout`, or the first cause it meets. A cause discards all of `run`'s effect
(R159). -/
def runCommand (run : State → Except Cause (State × Word)) (s : State) :
    Host.Outcome State Fault Refusal :=
  if s.flt ≠ 0 then .next (answerHalted s)
  else
    match run s with
    | .ok (s', v) => .next (answerOk v s')
    | .error c => .next (raise c s)

/-- A command whose word is illegal (R65, R155). -/
def illegalCommand (s : State) : Host.Outcome State Fault Refusal := runCommand (fun _ => .error .illcmd) s

/-! ### The host -/

/-- A reset request (R180): the buffer zero, no fault, the cursor at (0, 0), the record registers unspecified, hence
free values (R22; log entry 2). It is never refused. No command has been answered since (log entry 5). -/
def takeReset (s : State) : State :=
  { s with
    ctxId := Config.resetCtxId s.resets
    dcnAdr := Config.resetDcnAdr s.resets
    tcpId := Config.resetTcpId s.resets
    buf := Memory.zero
    flt := 0
    fi := 0, noff := 0
    answer := none
    resets := s.resets + 1 }

/-- The host's next move and the state in which the block meets it: the move is taken off the list, and a command's data
operand stands on `din` (R26, R55). None when the host has no move left (R17). -/
def nextMove (s : State) : Option (HostMove × State) :=
  match s.host with
  | [] => none
  | .command cmd d :: rest => some (.command cmd d, { s with host := rest, din := d })
  | .reset :: rest => some (.reset, { s with host := rest })

end Sys2Proof.Machine
end

