-- ==== Sys2Proof/Machine/Operands.lean ====
section
/-! DEFINITION. The operand forms (R63, R64): the offset, width and value of a field, and the operand of WRB; the width and
range checks of a field in the order of R158; the address check of WRB and RDB. -/

namespace Sys2Proof.Machine

/-- `boff = a`, a natural number (R63). -/
def offsetOf (boff : BitVec 4) : Nat := boff.toNat

/-- `W = w`, the width in bits, a natural number, not scaled (R63). -/
def widthOf (w : BitVec 6) : Nat := w.toNat

/-- PACK's value `din[W-1:0]`; `din[31:W]` is not read (R64). -/
def fieldValue (w : Nat) (din : Word) : Word := (din.setWidth w).setWidth 32

/-- WRB's byte `din[7:0]` (R64). -/
def byteValue (din : Word) : Byte := din.setWidth 8

/-- The checks of a field of width `w` at `boff` (R81, R82, R101), in the order WIDTH, UNSUP, RANGE (R158), in natural
numbers. -/
def checkField (boff w : Nat) : Except Cause Unit :=
  if w = 0 ∨ w % 4 ≠ 0 then .error .width
  else if w % 8 = 4 ∨ w > Config.valueBits then .error .unsup
  else if boff + (w + 7) / 8 + 1 > Config.bufBytes then .error .range
  else .ok ()

/-- The check of a byte address (R142, R143): addresses above 10 do not exist. -/
def checkAddr (a : Nat) : Except Cause Unit :=
  if a < Config.bufBytes then .ok () else .error .range

end Sys2Proof.Machine
end

