-- ==== Sys2Proof/Machine/HostAccess.lean ====
section
/-! DEFINITION. The host access commands WRR, RDR, WRB, RDB (R140 to R143). -/

namespace Sys2Proof.Machine

/-- WRR reg, #value (R140). TAG is read-only: naming it is ILLCMD (R155). -/
def execWrr (r : Reg) (s : State) : Host.Outcome State Fault Refusal :=
  runCommand (fun s => if r = .tag then .error .illcmd else .ok (writeReg r s.din s, 0)) s

/-- RDR reg (R141): the register, zero-extended; TAG reads as 2. -/
def execRdr (r : Reg) (s : State) : Host.Outcome State Fault Refusal :=
  runCommand (fun s => .ok (s, readReg r s)) s

/-- WRB addr, #byte (R142): the whole byte is overwritten. -/
def execWrb (addr : BitVec 4) (s : State) : Host.Outcome State Fault Refusal :=
  runCommand (fun s =>
    match checkAddr addr.toNat with
    | .error c => .error c
    | .ok () => .ok ({ s with buf := s.buf.write addr.toNat (byteValue s.din) }, 0)) s

/-- RDB addr (R143): the byte, zero-extended. -/
def execRdb (addr : BitVec 4) (s : State) : Host.Outcome State Fault Refusal :=
  runCommand (fun s =>
    match checkAddr addr.toNat with
    | .error c => .error c
    | .ok () => .ok (s, (s.buf.read addr.toNat).setWidth 32)) s

end Sys2Proof.Machine
end

