-- ==== Sys2Proof/Machine/Packer.lean ====
section
/-! DEFINITION. The nibble_packer: the function `pack` (R80 to R88) and the command PACK (R89). -/

namespace Sys2Proof.Machine

/-- What is ORed into the `k`-th touched byte (R86): the low nibble of `dc[k]` shifted high and the high nibble of
`dc[k-1]` shifted low, each where there is such a source byte. -/
def packByte (dc : List Byte) (k : Nat) : Byte :=
  (if k < dc.length then dc.getD k 0 <<< 4 else 0) ||| (if 1 ≤ k then dc.getD (k - 1) 0 >>> 4 else 0)

/-- OR a list of bytes into the buffer from address `start` on (R86, R87). -/
def orBytes (m : Memory) (start : Nat) : List Byte → Memory
  | [] => m
  | x :: rest => orBytes (m.write start (m.read start ||| x)) (start + 1) rest

/-- The loop of `pack` (R86), the checks passed: N+1 bytes are touched. -/
def packField (m : Memory) (boff : Nat) (v : Word) (w : Nat) : Memory :=
  let dc := beBytes v (w / 8)
  orBytes m boff ((List.range (w / 8 + 1)).map (packByte dc))

/-- `pack(B, boff, v, W)`: a buffer, or a contract violation (R80). -/
def pack (m : Memory) (boff : Nat) (v : Word) (w : Nat) : Except Cause Memory :=
  match checkField boff w with
  | .error c => .error c
  | .ok () => .ok (packField m boff v w)

/-- PACK boff, W, #value (R89). -/
def execPack (boff : BitVec 4) (w : BitVec 6) (s : State) : Host.Outcome State Fault Refusal :=
  runCommand (fun s =>
    match pack s.buf (offsetOf boff) (fieldValue (widthOf w) s.din) (widthOf w) with
    | .error c => .error c
    | .ok m => .ok ({ s with buf := m }, 0)) s

end Sys2Proof.Machine
end

