-- ==== Sys2Proof/Machine/Unpacker.lean ====
section
/-! DEFINITION. The nibble_unpacker: the function `unpack` (R100 to R103) and the command UNPACK (R104). -/

namespace Sys2Proof.Machine

/-- Source byte `dc[k]` of a field at `boff` (R102): the high nibble of one byte below the low nibble of the next. -/
def unpackByte (m : Memory) (boff k : Nat) : Byte := (m.read (boff + k) >>> 4) ||| (m.read (boff + k + 1) <<< 4)

/-- The body of `unpack` (R102), the checks passed. -/
def unpackField (m : Memory) (boff w : Nat) : Word := fromBe ((List.range (w / 8)).map (unpackByte m boff))

/-- `unpack(B, boff, W)`: a value, or a contract violation (R100, R101). -/
def unpack (m : Memory) (boff w : Nat) : Except Cause Word :=
  match checkField boff w with
  | .error c => .error c
  | .ok () => .ok (unpackField m boff w)

/-- UNPACK boff, W (R104). -/
def execUnpack (boff : BitVec 4) (w : BitVec 6) (s : State) : Host.Outcome State Fault Refusal :=
  runCommand (fun s =>
    match unpack s.buf (offsetOf boff) (widthOf w) with
    | .error c => .error c
    | .ok v => .ok (s, v)) s

end Sys2Proof.Machine
end

