-- ==== Sys2Proof/Machine/Sequencer.lean ====
section
/-! DEFINITION. The record_codec_sequencer: the schema table (R110), the pure functions `encode` and `decode` (R112, R113),
the sequencer's micro-steps over its hidden cursor (R118, R119), and the commands CLR, TAG, ENCODE, DECODE (R114 to
R117). ENCODE and DECODE run the micro-steps inside one atomic command (R52; log entry 8). -/

namespace Sys2Proof.Machine

/-- The register the schema entry `fi` names (R110). -/
def schemaReg (fi : BitVec 2) : Reg :=
  match fi.toNat with
  | 0 => .tag
  | 1 => .ctxId
  | 2 => .dcnAdr
  | _ => .tcpId

/-- `W[fi]`, the width of a schema entry in bits (R110). -/
def schemaWidth (fi : BitVec 2) : Nat :=
  match fi.toNat with
  | 0 => 4
  | 1 => 16
  | _ => 32

/-- Start wire bit of a schema entry, as the table of R110 lists it. -/
def schemaStartBit (fi : BitVec 2) : Nat :=
  match fi.toNat with
  | 0 => 0
  | 1 => 4
  | 2 => 20
  | _ => 52

/-- The tag into the low nibble of byte 0, the high nibble kept (R115, D13). -/
def writeTag (m : Memory) : Memory := m.write 0 ((m.read 0 &&& 0xF0) ||| Config.tagValue.setWidth 8)

/-- `encode(c, d, t)` (R112). -/
def encodeRecord (c : BitVec 16) (d t : BitVec 32) : Memory :=
  let m := writeTag Memory.zero
  let m := packField m 0 (c.setWidth 32) 16
  let m := packField m 2 d 32
  packField m 6 t 32

/-- `decode(B)` (R113). -/
def decodeRecord (m : Memory) : BitVec 16 × BitVec 32 × BitVec 32 :=
  ((unpackField m 0 16).setWidth 16, unpackField m 2 32, unpackField m 6 32)

/-! ### The micro-steps -/

/-- The cursor at the start and at the end of a run of the sequencer: (0, 0) (R30, R118, R119). -/
def cursorHome (s : State) : State := { s with fi := 0, noff := 0 }

/-- The cursor steps to the next schema entry: `noff <- noff + W[fi] / 4`, `fi <- fi + 1` (R118, R119). -/
def cursorNext (s : State) : State :=
  { s with fi := s.fi + 1, noff := s.noff + BitVec.ofNat 5 (schemaWidth s.fi / 4) }

/-- Step E0 (R118). -/
def encodeStart (s : State) : State := { cursorHome s with buf := Memory.zero }

/-- Steps E1 to E4 (R118): the tag entry is written by the sequencer itself, the others go through the packer. -/
def encodeEntry (s : State) : State :=
  match schemaReg s.fi with
  | .tag => cursorNext { s with buf := writeTag s.buf }
  | r => cursorNext { s with buf := packField s.buf (s.noff.toNat / 2) (readReg r s) (schemaWidth s.fi) }

/-- Steps D1 to D4 (R119): the tag entry is skipped, the others come from the unpacker. -/
def decodeEntry (s : State) : State :=
  match schemaReg s.fi with
  | .tag => cursorNext s
  | r => cursorNext (writeReg r (unpackField s.buf (s.noff.toNat / 2) (schemaWidth s.fi)) s)

/-- The same micro-step `n` times, one schema entry after the other. -/
def runEntries (entry : State → State) : Nat → State → State
  | 0, s => s
  | n + 1, s => runEntries entry n (entry s)

/-- All of ENCODE's micro-steps, E0 to E4, and the cursor's return (R118). -/
def encodeRun (s : State) : State := cursorHome (runEntries encodeEntry 4 (encodeStart s))

/-- All of DECODE's micro-steps, D1 to D4, and the cursor's return (R119). -/
def decodeRun (s : State) : State := cursorHome (runEntries decodeEntry 4 (cursorHome s))

/-! ### The commands -/

/-- CLR (R114). -/
def execClr (s : State) : Host.Outcome State Fault Refusal :=
  runCommand (fun s => .ok ({ s with buf := Memory.zero }, 0)) s

/-- TAG (R115). -/
def execTag (s : State) : Host.Outcome State Fault Refusal :=
  runCommand (fun s => .ok ({ s with buf := writeTag s.buf }, 0)) s

/-- ENCODE (R116), as the sequencer performs it (R118). -/
def execEncode (s : State) : Host.Outcome State Fault Refusal :=
  runCommand (fun s => .ok (encodeRun s, 0)) s

/-- DECODE (R117), as the sequencer performs it (R119). -/
def execDecode (s : State) : Host.Outcome State Fault Refusal :=
  runCommand (fun s => .ok (decodeRun s, 0)) s

end Sys2Proof.Machine
end

