-- ==== Sys2Proof/Machine/Dispatch.lean ====
section
/-! DEFINITION. One arm per command of R62. -/

namespace Sys2Proof.Machine

def exec (i : Instr) (s : State) : Host.Outcome State Fault Refusal :=
  match i with
  | .clr => Sys2Proof.Machine.execClr s
  | .tag => Sys2Proof.Machine.execTag s
  | .pack boff w => Sys2Proof.Machine.execPack boff w s
  | .unpack boff w => Sys2Proof.Machine.execUnpack boff w s
  | .encode => Sys2Proof.Machine.execEncode s
  | .decode => Sys2Proof.Machine.execDecode s
  | .wrr reg => Sys2Proof.Machine.execWrr reg s
  | .rdr reg => Sys2Proof.Machine.execRdr reg s
  | .wrb addr => Sys2Proof.Machine.execWrb addr s
  | .rdb addr => Sys2Proof.Machine.execRdb addr s

end Sys2Proof.Machine
end

