-- ==== Sys2Proof/Machine/Step.lean ====
section
/-! DEFINITION. One step (R16, R55): the host's next move is taken whole. A command word is decoded and run; a reset
request resets the block; with no move left the block is idle (R181; log entry 4). -/

namespace Sys2Proof.Machine

/-- One step of the block. -/
def step (s : State) : Host.Outcome State Fault Refusal :=
  match nextMove s with
  | none => .next s
  | some (.reset, s') => .next (takeReset s')
  | some (.command cmd _, s') =>
    match decodeWord cmd with
    | .ok i => exec i s'
    | .error _ => illegalCommand s'

/-- `s` with one command word put where `step` takes its next move: at the head of the host's list, with the data
operand that stands on `din` (log entry 3). -/
def State.withFetchWord (s : State) (nbits w : Nat) : State :=
  { s with host := .command (BitVec.ofNat 16 (w % 2 ^ nbits)) s.din :: s.host }

end Sys2Proof.Machine
end

