-- ==== Sys2Proof/Safety.lean ====
section
/-! DEFINITION. The terms the claims use: which states a good run stays in (R17, R157), the invariant of the block, which
fields PACK and UNPACK admit (R81, R82), which data a command reads (R64), and a finite run of commands (R17). -/

namespace Sys2Proof.Machine

/-- What `status`, `dout` and `flt` say to one another at a command boundary (R70, R151, R156, R157): the latest command
completed and there is no fault, or it faulted with the cause `flt` holds, or it was refused because `flt` held one. -/
def State.answerAgrees (s : State) : Bool :=
  match s.answer with
  | none => s.flt == 0
  | some r =>
    (r.status == 0 && s.flt == 0) || (s.flt != 0 && r.dout == 0 && (r.status == s.flt || r.status == 7))

/-- The invariant of the block: the buffer in canonical form at existing addresses (R40), `flt` never 5, 6 or 7 (R27), the
cursor at (0, 0) between commands (R30), the answer in step with `flt`. -/
abbrev State.Inv (s : State) : Prop :=
  s.buf.wf ∧ s.flt.toNat ≤ 4 ∧ s.fi = 0 ∧ s.noff = 0 ∧ s.answerAgrees = true

/-- A good run passes only through states that are not halted (R17, R157). -/
abbrev State.good (s : State) : Prop := s.flt = 0

/-- A field PACK and UNPACK admit: a width of 8, 16, 24 or 32 bits (R81) at an offset where its bytes exist (R82). -/
abbrev admitted (boff w : Nat) : Prop := (w = 8 ∨ w = 16 ∨ w = 24 ∨ w = 32) ∧ boff + w / 8 + 1 ≤ 11

/-- Wire bit `n` lies in the field of width `w` at `boff` (R48). -/
abbrev inField (boff w n : Nat) : Prop := 8 * boff + 4 ≤ n ∧ n < 8 * boff + 4 + w

/-- R65 in numbers: with `op`, `a`, `z` and `w` cut from the word by division, the word is no legal command when (a) `op` is
0 or above 10, (b) `z` is not 0, (c) the format is Z and `a` or `w` is not 0, (d) the format is A and `w` is not 0, (e) it
is WRR and `a` is not 1, 2 or 3, or (f) it is RDR and `a` is above 3. -/
abbrev illegalWord (cmd : CmdWord) : Prop :=
  cmd.toNat / 4096 = 0 ∨ 10 < cmd.toNat / 4096 ∨ cmd.toNat / 64 % 4 ≠ 0 ∨
    (cmd.toNat / 4096 ∈ [1, 2, 5, 6] ∧ (cmd.toNat / 256 % 16 ≠ 0 ∨ cmd.toNat % 64 ≠ 0)) ∨
    (cmd.toNat / 4096 ∈ [7, 8, 9, 10] ∧ cmd.toNat % 64 ≠ 0) ∨
    (cmd.toNat / 4096 = 7 ∧ (cmd.toNat / 256 % 16 = 0 ∨ 3 < cmd.toNat / 256 % 16)) ∨
    (cmd.toNat / 4096 = 8 ∧ 3 < cmd.toNat / 256 % 16)

/-- The two data operands agree on every bit the command reads (R64). -/
abbrev readsAlike (i : Instr) (d e : Word) : Prop :=
  match i with
  | .pack _ w => ∀ j, j < w.toNat → d.getLsbD j = e.getLsbD j
  | .wrr .ctxId => ∀ j, j < 16 → d.getLsbD j = e.getLsbD j
  | .wrr .dcnAdr => d = e
  | .wrr .tcpId => d = e
  | .wrr .tag => True
  | .wrb _ => ∀ j, j < 8 → d.getLsbD j = e.getLsbD j
  | .clr => True
  | .tag => True
  | .unpack _ _ => True
  | .encode => True
  | .decode => True
  | .rdr _ => True
  | .rdb _ => True

/-- A finite run of commands, each with the data operand presented beside it (R17, R68); none if one of them does not
answer a next state. -/
def runCommands : List (Instr × Word) → State → Option State
  | [], s => some s
  | (i, d) :: rest, s =>
    match exec i { s with din := d } with
    | .next t => runCommands rest t
    | .fault _ => none
    | .refused _ => none

end Sys2Proof.Machine
end

