-- ==== Sys2Proof/Certificates/Slice0/Obligations.lean ====
section
/-! DEFINITION. The statements for the provers, each from the rules its docstring names. `s` is the state a command meets, `t`
the state it leaves; `{ s with … }` says that every field not named is as in `s`, which is the command's frame. -/

open Sys2Proof Sys2Proof.Machine

/-! ### The command word -/

/-- R61, R62, R67: the decoder reads back every legal command from the word the encoder gives it. -/
def Obligations.DecodeOfEncodeIsIdentity : Prop :=
  ∀ i : Instr, i.wellFormed = true → decodeWord (encodeWord i) = .ok i ∧ legalWord (encodeWord i) = true

/-- R60, R66, R67: a word that decodes is the one word of the command it decodes to. -/
def Obligations.DecodedWordIsTheCommandsOnlyWord : Prop :=
  ∀ (cmd : CmdWord) (i : Instr), decodeWord cmd = .ok i → encodeWord i = cmd

/-- R62, R68: the worked encodings of the spec, and one word of every format Z command. -/
def Obligations.WorkedEncodingsDecode : Prop :=
  decodeWord 0x1000 = .ok .clr ∧ decodeWord 0x2000 = .ok .tag ∧
  decodeWord 0x3010 = .ok (.pack 0 16) ∧ decodeWord 0x3220 = .ok (.pack 2 32) ∧
  decodeWord 0x3620 = .ok (.pack 6 32) ∧ decodeWord 0x4620 = .ok (.unpack 6 32) ∧
  decodeWord 0x5000 = .ok .encode ∧ decodeWord 0x6000 = .ok .decode ∧
  decodeWord 0x7100 = .ok (.wrr .ctxId) ∧ decodeWord 0x8300 = .ok (.rdr .tcpId) ∧
  decodeWord 0x9A00 = .ok (.wrb 10) ∧ decodeWord 0xAA00 = .ok (.rdb 10)

/-- R155 with R65: not halted, a word faults ILLCMD exactly when R65 calls it illegal; the fault changes `flt` and the
answer only. -/
def Obligations.IllegalWordsFaultIllcmd : Prop :=
  ∀ (s : State) (cmd : CmdWord) (d : Word) (rest : List HostMove),
    s.host = .command cmd d :: rest → s.flt = 0 →
    (illegalWord cmd →
      step s = .next { s with host := rest, din := d, flt := 4, answer := some ⟨4, 0⟩ }) ∧
    (¬ illegalWord cmd → ∃ t, step s = .next t ∧ t.flt ≠ 4) ∧
    (legalWord cmd = false ↔ illegalWord cmd)

/-! ### Steps, faults, halting, reset -/

/-- R16, R55, R67: a step whose command word decodes to `i` is `exec i`, the word taken off the host's list and its data
operand on `din`. The list and the port are the model's (log entries 3, 6). -/
def Obligations.StepRunsTheDecodedCommand : Prop :=
  ∀ (s : State) (cmd : CmdWord) (d : Word) (rest : List HostMove) (i : Instr),
    s.host = .command cmd d :: rest → decodeWord cmd = .ok i →
    step s = exec i { s with host := rest, din := d }

/-- R181: with no move of the host left the block is idle. That an idle step answers the same state is the model's
(log entry 4). -/
def Obligations.StepWithoutMovesIsIdle : Prop :=
  ∀ s : State, s.host = [] → step s = .next s

/-- R190, R16: the block never stops the model; every step answers a next state. -/
def Obligations.EveryStepAnswersANextState : Prop :=
  (∀ s : State, ∃ t, step s = .next t) ∧ ∀ (i : Instr) (s : State), ∃ t, exec i s = .next t

/-- R158, with the effects R156 and R157 give each test: the first test that fires decides the answer of every word, in
the order HALTED, ILLCMD, WIDTH, UNSUP, RANGE. -/
def Obligations.FirstTestThatFiresDecides : Prop :=
  ∀ (s : State) (cmd : CmdWord) (d : Word) (rest : List HostMove),
    s.host = .command cmd d :: rest →
    let op := cmd.toNat / 4096
    let a := cmd.toNat / 256 % 16
    let w := cmd.toNat % 64
    ∃ t, step s = .next t ∧
      if s.flt ≠ 0 then t = { s with host := rest, din := d, answer := some ⟨7, 0⟩ }
      else if illegalWord cmd then t = { s with host := rest, din := d, flt := 4, answer := some ⟨4, 0⟩ }
      else if (op = 3 ∨ op = 4) ∧ (w = 0 ∨ w % 4 ≠ 0) then
        t = { s with host := rest, din := d, flt := 1, answer := some ⟨1, 0⟩ }
      else if (op = 3 ∨ op = 4) ∧ (w % 8 = 4 ∨ 32 < w) then
        t = { s with host := rest, din := d, flt := 3, answer := some ⟨3, 0⟩ }
      else if ((op = 3 ∨ op = 4) ∧ 11 < a + w / 8 + 1) ∨ ((op = 9 ∨ op = 10) ∧ 10 < a) then
        t = { s with host := rest, din := d, flt := 2, answer := some ⟨2, 0⟩ }
      else t.flt = 0 ∧ ∃ v, t.answer = some ⟨0, v⟩

/-- R156: a command changes `flt` only when it was 0; then `flt` takes the code of a cause, the command answers that code
and 0, and no other state changes. -/
def Obligations.FaultEntryChangesNothingElse : Prop :=
  ∀ (i : Instr) (s t : State), exec i s = .next t → t.flt ≠ s.flt →
    s.flt = 0 ∧ (∃ c : Cause, t.flt = c.code) ∧ (t.flt = 1 ∨ t.flt = 2 ∨ t.flt = 3 ∨ t.flt = 4) ∧
    t = { s with flt := t.flt, answer := some ⟨t.flt, 0⟩ }

/-- R157: while `flt != 0` every command, legal or not, changes no state and answers HALTED and 0, `flt_o` shows the
cause, and no step but a reset changes `flt`. -/
def Obligations.HaltedCommandsDoNothing : Prop :=
  (∀ (s : State) (cmd : CmdWord) (d : Word) (rest : List HostMove),
    s.flt ≠ 0 → s.host = .command cmd d :: rest →
    step s = .next { s with host := rest, din := d, answer := some ⟨7, 0⟩ }) ∧
  (∀ (i : Instr) (s : State), s.flt ≠ 0 → exec i s = .next { s with answer := some ⟨7, 0⟩ }) ∧
  ∀ s t : State, s.flt ≠ 0 → step s = .next t → s.host.head? ≠ some .reset → t.fltO = s.flt ∧ t.flt = s.flt

/-- R27: `flt` is set by fault entry, from 0, and by nothing else, and cleared by reset alone. -/
def Obligations.FltChangesByFaultOrResetOnly : Prop :=
  ∀ s t : State, step s = .next t → t.flt ≠ s.flt →
    (s.host.head? = some .reset ∧ t.flt = 0) ∨
    (s.flt = 0 ∧ (∃ cmd d, s.host.head? = some (.command cmd d)) ∧
      (t.flt = 1 ∨ t.flt = 2 ∨ t.flt = 3 ∨ t.flt = 4) ∧ t.answer = some ⟨t.flt, 0⟩)

/-- R150, R67: whether a command faults, and with which cause, depends on its word and `flt` alone, never on `din`, the
buffer or the record registers. -/
def Obligations.FaultsDependOnTheWordAlone : Prop :=
  ∀ (s₁ s₂ t₁ t₂ : State) (cmd : CmdWord) (d₁ d₂ : Word) (rest₁ rest₂ : List HostMove),
    s₁.host = .command cmd d₁ :: rest₁ → s₂.host = .command cmd d₂ :: rest₂ → s₁.flt = s₂.flt →
    step s₁ = .next t₁ → step s₂ = .next t₂ →
    t₁.flt = t₂.flt ∧ t₁.answer.map Response.status = t₂.answer.map Response.status

/-- R70: every command word is answered with a status and a `dout`; the status is 7 when the block was halted, else OK or
the cause `flt` now holds; `dout` carries the result of UNPACK, RDR or RDB when the status is OK and is 0 in every other
case. -/
def Obligations.EveryCommandAnswersStatusAndData : Prop :=
  ∀ (s : State) (cmd : CmdWord) (d : Word) (rest : List HostMove),
    s.host = .command cmd d :: rest →
    ∃ (t : State) (r : Response), step s = .next t ∧ t.answer = some r ∧
      (if s.flt ≠ 0 then r.status = 7
       else r.status = t.flt ∧
        (r.status = 0 ∨ r.status = 1 ∨ r.status = 2 ∨ r.status = 3 ∨ r.status = 4)) ∧
      (r.status ≠ 0 → r.dout = 0) ∧
      (r.status = 0 → ∃ i, decodeWord cmd = .ok i ∧
        ((∀ boff w, i ≠ .unpack boff w) → (∀ r, i ≠ .rdr r) → (∀ a, i ≠ .rdb a) → r.dout = 0) ∧
        (∀ boff w, i = .unpack boff w → unpack s.buf boff.toNat w.toNat = .ok r.dout) ∧
        (∀ reg, i = .rdr reg → r.dout = readReg reg s) ∧
        (∀ a, i = .rdb a → r.dout = (s.buf.read a.toNat).setWidth 32))

/-- R180 with R25, R27, R30: a reset request, never refused, halted or not, sets the buffer, `flt` and the cursor to their
reset values; nothing is said of `r[1..3]`, whose values are free; power-on leaves the same; only a reset leaves the
halted state. -/
def Obligations.ResetRequestResetsTheBlock : Prop :=
  (∀ (s : State) (rest : List HostMove), s.host = .reset :: rest →
    ∃ t, step s = .next t ∧ (∀ a, t.buf.read a = 0) ∧ t.flt = 0 ∧ t.fi = 0 ∧ t.noff = 0 ∧ t.host = rest) ∧
  ((∀ a, State.reset.buf.read a = 0) ∧ State.reset.flt = 0 ∧ State.reset.fi = 0 ∧ State.reset.noff = 0) ∧
  ∀ s t : State, s.halted = true → step s = .next t → t.halted = false → s.host.head? = some .reset

/-- R180, R181 with R25, R27, R30: after power-on the buffer is zero, the block is not halted, the cursor is home. The
values of `r[1..3]` are not stated. -/
def Obligations.PowerOnStateIsIdleAndZero : Prop :=
  (∀ a, State.reset.buf.read a = 0) ∧ State.reset.flt = 0 ∧ State.reset.halted = false ∧
    State.reset.fi = 0 ∧ State.reset.noff = 0

/-! ### The invariant -/

/-- R25, R27, R30, R40, R70: every step keeps the invariant of the block. The canonical form of the buffer is the model's
(log entry 7), and the answer standing between commands is too (log entry 5). -/
def Obligations.EveryStepKeepsInv : Prop :=
  ∀ s t : State, s.Inv → step s = .next t → t.Inv

/-- The invariant holds after power-on. -/
def Obligations.InvHoldsAtReset : Prop := State.reset.Inv

/-! ### Frames over all commands -/

/-- R22, R25, R41, R116, R117, the columns "written by": the record registers change by WRR (the one named) and DECODE
only, the buffer by CLR, TAG, PACK, ENCODE and WRB only, the cursor is as before or home, and the host's moves, the
port `din` and the count of resets never change. -/
def Obligations.OnlyTheListedCommandsWrite : Prop :=
  ∀ (i : Instr) (s t : State), exec i s = .next t →
    (t.ctxId ≠ s.ctxId → i = .wrr .ctxId ∨ i = .decode) ∧
    (t.dcnAdr ≠ s.dcnAdr → i = .wrr .dcnAdr ∨ i = .decode) ∧
    (t.tcpId ≠ s.tcpId → i = .wrr .tcpId ∨ i = .decode) ∧
    (t.buf ≠ s.buf → i = .clr ∨ i = .tag ∨ i = .encode ∨ (∃ boff w, i = .pack boff w) ∨ ∃ a, i = .wrb a) ∧
    ((t.fi = s.fi ∧ t.noff = s.noff) ∨ (t.fi = 0 ∧ t.noff = 0 ∧ (i = .encode ∨ i = .decode))) ∧
    t.host = s.host ∧ t.din = s.din ∧ t.resets = s.resets

/-- R51 (a): UNPACK, RDR and RDB change nothing but the answer and DECODE leaves the buffer; repeating one answers the same
and leaves the same state. -/
def Obligations.ReadsHaveNoSideEffect : Prop :=
  ∀ (i : Instr) (s t : State),
    ((∃ boff w, i = .unpack boff w) ∨ (∃ r, i = .rdr r) ∨ (∃ a, i = .rdb a) ∨ i = .decode) →
    exec i s = .next t → t.flt = 0 →
    t.buf = s.buf ∧ (i ≠ .decode → t = { s with answer := t.answer }) ∧ exec i t = .next t

/-- R64: bits of `din` a command does not read have no effect on anything. -/
def Obligations.UnreadDataBitsHaveNoEffect : Prop :=
  ∀ (i : Instr) (s : State) (d e : Word), readsAlike i d e →
    ∃ t : State, exec i { s with din := d } = .next { t with din := d } ∧
      exec i { s with din := e } = .next { t with din := e }

/-! ### CLR and TAG -/

/-- R114: CLR zeroes the eleven bytes, answers OK and changes nothing else. -/
def Obligations.ClrZeroesTheBuffer : Prop :=
  ∀ s : State, s.flt = 0 →
    ∃ t, exec .clr s = .next t ∧ (∀ a, a ≤ 10 → t.buf.read a = 0) ∧
      t = { s with buf := t.buf, answer := some ⟨0, 0⟩ }

/-- R115: TAG puts `0b0010` in the low nibble of byte 0 and keeps its high nibble and every other byte. -/
def Obligations.TagWritesTheLowNibbleOfByteZero : Prop :=
  ∀ s : State, s.flt = 0 →
    ∃ t, exec .tag s = .next t ∧ t.buf.read 0 = (s.buf.read 0 &&& 0xF0) ||| 0x02 ∧
      (∀ a, a ≠ 0 → t.buf.read a = s.buf.read a) ∧
      t = { s with buf := t.buf, answer := some ⟨0, 0⟩ }

/-! ### PACK -/

/-- R86, R87 for the command PACK (R89): each of the N+1 touched bytes is ORed with the low nibble of `dc[k]` shifted high
and the high nibble of `dc[k-1]` shifted low, where `dc[k]` is the `k`-th byte of `din`'s low 8N bits, most significant
first; the low nibble of the first byte, the high nibble of the last and every other byte keep their values. -/
def Obligations.PackOrsTheSourceNibbles : Prop :=
  ∀ (s : State) (boff : BitVec 4) (w : BitVec 6), s.flt = 0 → admitted boff.toNat w.toNat →
    let o := boff.toNat
    let N := w.toNat / 8
    let dc : Nat → Byte := fun k => (s.din >>> (8 * (N - 1 - k))).setWidth 8
    ∃ t, exec (.pack boff w) s = .next t ∧
      (∀ k, k ≤ N → t.buf.read (o + k) =
        s.buf.read (o + k) ||| ((if k < N then dc k <<< 4 else 0) ||| (if 1 ≤ k then dc (k - 1) >>> 4 else 0))) ∧
      t.buf.read o &&& 0x0F = s.buf.read o &&& 0x0F ∧
      t.buf.read (o + N) &&& 0xF0 = s.buf.read (o + N) &&& 0xF0 ∧
      (∀ a, a < o ∨ o + N < a → t.buf.read a = s.buf.read a) ∧
      t = { s with buf := t.buf, answer := some ⟨0, 0⟩ }

/-- R88: the buffer as one number after a PACK, and no wire bit outside the field changes. -/
def Obligations.PackClosedForm : Prop :=
  ∀ (m : Memory) (boff w : Nat) (v : Word), admitted boff w →
    ∃ m', pack m boff v w = .ok m' ∧
      m'.bufint = m.bufint ||| (((bswap (w / 8) v).setWidth 88) <<< (8 * boff + 4)) ∧
      ∀ n, ¬ inField boff w n → m'.wireBit n = m.wireBit n

/-- R43, R84, R85: wire bit `4s + j` of a field packed into a zero region holds bit `8 * (N-1 - j div 8) + j mod 8` of the
value, where `s = 2*boff + 1` is the field's first wire nibble. -/
def Obligations.PackedFieldBitOrder : Prop :=
  ∀ (m : Memory) (boff w : Nat) (v : Word), admitted boff w → (∀ n, inField boff w n → m.wireBit n = false) →
    ∃ m', pack m boff v w = .ok m' ∧
      ∀ j, j < w →
        m'.wireBit (4 * (2 * boff + 1) + j) = v.getLsbD (8 * (w / 8 - 1 - j / 8) + j % 8)

/-- R90 (a) to (d): PACK is idempotent, commutes with every PACK, never clears a bit and changes only its field's wire
bits. -/
def Obligations.PackAlgebra : Prop :=
  ∀ (m m₁ m₂ m₁₂ m₂₁ : Memory) (o₁ w₁ o₂ w₂ : Nat) (v₁ v₂ : Word),
    pack m o₁ v₁ w₁ = .ok m₁ → pack m₁ o₂ v₂ w₂ = .ok m₁₂ →
    pack m o₂ v₂ w₂ = .ok m₂ → pack m₂ o₁ v₁ w₁ = .ok m₂₁ →
    (∃ m₁₁, pack m₁ o₁ v₁ w₁ = .ok m₁₁ ∧ ∀ a, m₁₁.read a = m₁.read a) ∧
    (∀ a, m₁₂.read a = m₂₁.read a) ∧
    (∀ n, m.wireBit n = true → m₁.wireBit n = true) ∧
    (∀ n, ¬ inField o₁ w₁ n → m₁.wireBit n = m.wireBit n)

/-- R90 (e), (f): on any region the field afterwards holds the OR of its old bits and `bswap_N(v)`, which on a zero region
is `bswap_N(v)`, and `unpack` then answers a value with every 1 bit of `v`. -/
def Obligations.PackOnADirtyRegion : Prop :=
  ∀ (m : Memory) (boff w : Nat) (v : Word), admitted boff w → v.toNat < 2 ^ w →
    ∃ m' u, pack m boff v w = .ok m' ∧ unpack m' boff w = .ok u ∧ u &&& v = v ∧
      (∀ j, j < w → m'.wireBit (8 * boff + 4 + j) =
        (m.wireBit (8 * boff + 4 + j) || (bswap (w / 8) v).getLsbD j)) ∧
      ((∀ n, inField boff w n → m.wireBit n = false) → u = v)

/-- R81, R82, R101: `pack` and `unpack` refuse the same fields with the same causes, in the order WIDTH, UNSUP, RANGE, and
accept every other. -/
def Obligations.PackAndUnpackRefuseAlike : Prop :=
  ∀ (m : Memory) (boff w : Nat) (v : Word),
    if w = 0 ∨ w % 4 ≠ 0 then pack m boff v w = .error .width ∧ unpack m boff w = .error .width
    else if w % 8 = 4 ∨ 32 < w then pack m boff v w = .error .unsup ∧ unpack m boff w = .error .unsup
    else if 11 < boff + (w + 7) / 8 + 1 then pack m boff v w = .error .range ∧ unpack m boff w = .error .range
    else (∃ m', pack m boff v w = .ok m') ∧ ∃ u, unpack m boff w = .ok u

/-! ### UNPACK -/

/-- R102 for the command UNPACK (R104): byte `k` of the answer, most significant first, is the high nibble of byte
`boff+k` below the low nibble of the next; the answer is zero-extended; nothing else changes. -/
def Obligations.UnpackAnswersTheJoinedNibbles : Prop :=
  ∀ (s : State) (boff : BitVec 4) (w : BitVec 6), s.flt = 0 → admitted boff.toNat w.toNat →
    let o := boff.toNat
    let N := w.toNat / 8
    ∃ v : Word, exec (.unpack boff w) s = .next { s with answer := some ⟨0, v⟩ } ∧ v.toNat < 2 ^ w.toNat ∧
      ∀ k, k < N → ((v >>> (8 * (N - 1 - k))).setWidth 8 : Byte) =
        (s.buf.read (o + k) >>> 4) ||| (s.buf.read (o + k + 1) <<< 4)

/-- R103: the value of `unpack` as a closed form over the buffer as one number. -/
def Obligations.UnpackClosedForm : Prop :=
  ∀ (m : Memory) (boff w : Nat), admitted boff w →
    unpack m boff w = .ok (bswap (w / 8) (BitVec.ofNat 32 ((m.bufint >>> (8 * boff + 4)).toNat % 2 ^ w)))

/-- R105: `unpack` gives back what `pack` put into a zero region, and packing what `unpack` read back into the cleared
region restores the buffer. -/
def Obligations.UnpackInvertsPack : Prop :=
  (∀ (m : Memory) (boff w : Nat) (v : Word), admitted boff w → v.toNat < 2 ^ w →
    (∀ n, inField boff w n → m.wireBit n = false) →
    ∃ m', pack m boff v w = .ok m' ∧ unpack m' boff w = .ok v) ∧
  ∀ (m z : Memory) (boff w : Nat), admitted boff w →
    (∀ n, n < 88 → z.wireBit n = (m.wireBit n && !decide (inField boff w n))) →
    ∃ v m', unpack m boff w = .ok v ∧ pack z boff v w = .ok m' ∧ ∀ a, a ≤ 10 → m'.read a = m.read a

/-- R106: `unpack` depends only on the field's wire bits: buffers alike there give the same value, whatever the low nibble
of the first byte, the high nibble of the last and every other byte hold. -/
def Obligations.UnpackSeesItsFieldOnly : Prop :=
  ∀ (m n : Memory) (boff w : Nat), (∀ k, inField boff w k → m.wireBit k = n.wireBit k) →
    unpack m boff w = unpack n boff w

/-- R11: `from_be` and `be_bytes` are inverse to one another on the lengths the block uses. -/
def Obligations.BigEndianBytesRoundTrip : Prop :=
  (∀ (v : Word) (n : Nat), n ≤ 4 → v.toNat < 2 ^ (8 * n) → fromBe (beBytes v n) = v) ∧
  ∀ dc : List Byte, dc.length ≤ 4 → beBytes (fromBe dc) dc.length = dc

/-! ### ENCODE -/

/-- R112 for the command ENCODE (R116): the buffer is the tag in a zero buffer and then three packs, none of which breaks
the contract; the record registers keep their values, the cursor is home, and the old buffer has no influence. -/
def Obligations.EncodeIsTagThenThreePacks : Prop :=
  ∀ s : State, s.flt = 0 →
    ∃ b₁ b₂ b₃ b₄ : Memory,
      (b₁.read 0 = 0x02 ∧ ∀ a, a ≠ 0 → b₁.read a = 0) ∧
      pack b₁ 0 (s.ctxId.setWidth 32) 16 = .ok b₂ ∧ pack b₂ 2 s.dcnAdr 32 = .ok b₃ ∧
      pack b₃ 6 s.tcpId 32 = .ok b₄ ∧
      exec .encode s = .next { s with buf := b₄, fi := 0, noff := 0, answer := some ⟨0, 0⟩ }

/-- R45: the eleven bytes ENCODE leaves, nibble by nibble. -/
def Obligations.EncodeWritesTheByteMap : Prop :=
  ∀ s : State, s.flt = 0 →
    let hi : BitVec 4 → BitVec 4 → Byte := fun h l => (h.setWidth 8 <<< 4) ||| l.setWidth 8
    let c := s.ctxId
    let d := s.dcnAdr
    let t := s.tcpId
    ∃ b : Memory, exec .encode s = .next { s with buf := b, fi := 0, noff := 0, answer := some ⟨0, 0⟩ } ∧
      b.read 0 = hi (c.extractLsb' 8 4) 2 ∧
      b.read 1 = hi (c.extractLsb' 0 4) (c.extractLsb' 12 4) ∧
      b.read 2 = hi (d.extractLsb' 24 4) (c.extractLsb' 4 4) ∧
      b.read 3 = hi (d.extractLsb' 16 4) (d.extractLsb' 28 4) ∧
      b.read 4 = hi (d.extractLsb' 8 4) (d.extractLsb' 20 4) ∧
      b.read 5 = hi (d.extractLsb' 0 4) (d.extractLsb' 12 4) ∧
      b.read 6 = hi (t.extractLsb' 24 4) (d.extractLsb' 4 4) ∧
      b.read 7 = hi (t.extractLsb' 16 4) (t.extractLsb' 28 4) ∧
      b.read 8 = hi (t.extractLsb' 8 4) (t.extractLsb' 20 4) ∧
      b.read 9 = hi (t.extractLsb' 0 4) (t.extractLsb' 12 4) ∧
      b.read 10 = hi 0 (t.extractLsb' 4 4)

/-- R126: after ENCODE the low nibble of byte 0 is the tag. -/
def Obligations.EncodePlacesTheTag : Prop :=
  ∀ s : State, s.flt = 0 → ∃ t, exec .encode s = .next t ∧ t.buf.read 0 &&& 0x0F = 0b0010

/-- R127: after ENCODE the high nibble of byte 10 is 0, whatever the buffer held before. -/
def Obligations.EncodeClearsThePadding : Prop :=
  ∀ s : State, s.flt = 0 → ∃ t, exec .encode s = .next t ∧ t.buf.read 10 >>> 4 = 0

/-- R130: the encoded buffer as one number; the four terms are disjoint, so OR may be read as addition. -/
def Obligations.EncodeClosedForm : Prop :=
  ∀ (c : BitVec 16) (d t : BitVec 32),
    let tc := ((bswap 2 (c.setWidth 32)).setWidth 88 : BitVec 88) <<< 4
    let td := ((bswap 4 d).setWidth 88 : BitVec 88) <<< 20
    let tt := ((bswap 4 t).setWidth 88 : BitVec 88) <<< 52
    (encodeRecord c d t).bufint = 0x2 ||| tc ||| td ||| tt ∧
    (encodeRecord c d t).bufint = 0x2 + tc + td + tt

/-- R111, R118, R30: the cursor's values through ENCODE's micro-steps: the schema entries in order, each start nibble the
previous entry's end, byte offsets 0, 2, 6 at the three packs, the end at nibble 21, and home when the command
answers. -/
def Obligations.SequencerVisitsTheSchema : Prop :=
  ∀ s : State,
    let at' : Nat → State := fun k => runEntries encodeEntry k (encodeStart s)
    (at' 0).fi = 0 ∧ (at' 0).noff = 0 ∧
    (at' 1).fi = 1 ∧ (at' 1).noff = 1 ∧ (at' 1).noff.toNat / 2 = 0 ∧
    (at' 2).fi = 2 ∧ (at' 2).noff = 5 ∧ (at' 2).noff.toNat / 2 = 2 ∧
    (at' 3).fi = 3 ∧ (at' 3).noff = 13 ∧ (at' 3).noff.toNat / 2 = 6 ∧
    (at' 4).noff = 21 ∧
    (∀ k, k < 4 → 4 * (at' k).noff.toNat = schemaStartBit (at' k).fi ∧
      4 * (at' (k + 1)).noff.toNat = schemaStartBit (at' k).fi + schemaWidth (at' k).fi) ∧
    (encodeRun s).fi = 0 ∧ (encodeRun s).noff = 0

/-- R129: after ENCODE each field determines its own wire bits and no others, and the tag and padding bits depend on
nothing. -/
def Obligations.FieldsDoNotInterfere : Prop :=
  ∀ s₁ s₂ t₁ t₂ : State, s₁.flt = 0 → s₂.flt = 0 →
    exec .encode s₁ = .next t₁ → exec .encode s₂ = .next t₂ →
    (s₁.ctxId = s₂.ctxId → ∀ n, 4 ≤ n → n < 20 → t₁.buf.wireBit n = t₂.buf.wireBit n) ∧
    (s₁.dcnAdr = s₂.dcnAdr → ∀ n, 20 ≤ n → n < 52 → t₁.buf.wireBit n = t₂.buf.wireBit n) ∧
    (s₁.tcpId = s₂.tcpId → ∀ n, 52 ≤ n → n < 84 → t₁.buf.wireBit n = t₂.buf.wireBit n) ∧
    ∀ n, n < 4 ∨ (84 ≤ n ∧ n < 88) → t₁.buf.wireBit n = t₂.buf.wireBit n

/-! ### DECODE and the pair -/

/-- R113 for the command DECODE (R117): the three registers take what `unpack` reads at the three places of the schema,
which never breaks the contract; the buffer keeps its value and the cursor is home. -/
def Obligations.DecodeIsThreeUnpacks : Prop :=
  ∀ s : State, s.flt = 0 →
    ∃ (c : BitVec 16) (d t : BitVec 32),
      unpack s.buf 0 16 = .ok (c.setWidth 32) ∧ unpack s.buf 2 32 = .ok d ∧ unpack s.buf 6 32 = .ok t ∧
      exec .decode s = .next
        { s with ctxId := c, dcnAdr := d, tcpId := t, fi := 0, noff := 0, answer := some ⟨0, 0⟩ }

/-- R121, R122: DECODE reads neither the tag nor the padding: buffers alike in wire bits 4 to 83 decode to the same
record. -/
def Obligations.DecodeIgnoresTagAndPadding : Prop :=
  ∀ s₁ s₂ : State, s₁.flt = 0 → s₂.flt = 0 →
    (∀ n, 4 ≤ n → n < 84 → s₁.buf.wireBit n = s₂.buf.wireBit n) →
    ∃ t₁ t₂, exec .decode s₁ = .next t₁ ∧ exec .decode s₂ = .next t₂ ∧
      t₁.ctxId = t₂.ctxId ∧ t₁.dcnAdr = t₂.dcnAdr ∧ t₁.tcpId = t₂.tcpId

/-- R123: every buffer decodes with status OK; records and contents of wire bits 4 to 83 correspond one to one. -/
def Obligations.DecodeIsOneToOneOnFieldBits : Prop :=
  (∀ s : State, s.flt = 0 → ∃ t, exec .decode s = .next t ∧ t.flt = 0 ∧ t.answer = some ⟨0, 0⟩) ∧
  (∀ s₁ s₂ t₁ t₂ : State, s₁.flt = 0 → s₂.flt = 0 →
    exec .decode s₁ = .next t₁ → exec .decode s₂ = .next t₂ →
    t₁.ctxId = t₂.ctxId → t₁.dcnAdr = t₂.dcnAdr → t₁.tcpId = t₂.tcpId →
    ∀ n, 4 ≤ n → n < 84 → s₁.buf.wireBit n = s₂.buf.wireBit n) ∧
  ∀ (c : BitVec 16) (d t : BitVec 32), ∃ m : Memory, m.wf ∧ decodeRecord m = (c, d, t)

/-- R124: ENCODE then DECODE leaves the record registers as they were; DECODE then ENCODE leaves the buffer with the tag
and zero padding in their places and every field bit as it was, hence as it was exactly when they were right. -/
def Obligations.EncodeAndDecodeRoundTrip : Prop :=
  (∀ s : State, s.flt = 0 →
    ∃ t u, exec .encode s = .next t ∧ exec .decode t = .next u ∧
      u.ctxId = s.ctxId ∧ u.dcnAdr = s.dcnAdr ∧ u.tcpId = s.tcpId) ∧
  ∀ s : State, s.flt = 0 →
    ∃ t u, exec .decode s = .next t ∧ exec .encode t = .next u ∧
      (∀ n, n < 88 → u.buf.wireBit n = if n < 4 then decide (n = 1) else if n < 84 then s.buf.wireBit n else false) ∧
      ((∀ a, a ≤ 10 → u.buf.read a = s.buf.read a) ↔
        s.buf.read 0 &&& 0x0F = 0x02 ∧ s.buf.read 10 &&& 0xF0 = 0)

/-- R120: ENCODE leaves the buffer that CLR and then TAG and the three PACKs of the registers leave, in any order of the
four; DECODE leaves in the registers what the three UNPACKs answer. -/
def Obligations.RecordCommandsEqualFieldCommands : Prop :=
  (∀ (s : State) (p : List (Instr × Word)), s.flt = 0 →
    p.Perm [(.tag, 0), (.pack 0 16, s.ctxId.setWidth 32), (.pack 2 32, s.dcnAdr), (.pack 6 32, s.tcpId)] →
    ∃ t u, exec .encode s = .next t ∧ runCommands ((.clr, 0) :: p) s = some u ∧
      ∀ a, a ≤ 10 → u.buf.read a = t.buf.read a) ∧
  ∀ s : State, s.flt = 0 →
    ∃ t, exec .decode s = .next t ∧
      exec (.unpack 0 16) s = .next { s with answer := some ⟨0, t.ctxId.setWidth 32⟩ } ∧
      exec (.unpack 2 32) s = .next { s with answer := some ⟨0, t.dcnAdr⟩ } ∧
      exec (.unpack 6 32) s = .next { s with answer := some ⟨0, t.tcpId⟩ }

/-! ### Host access -/

/-- R140: WRR writes the one register named, CTX_ID from `din[15:0]`, and answers OK; naming TAG faults ILLCMD. -/
def Obligations.WrrWritesTheNamedRegister : Prop :=
  ∀ s : State, s.flt = 0 →
    exec (.wrr .ctxId) s = .next { s with ctxId := s.din.extractLsb' 0 16, answer := some ⟨0, 0⟩ } ∧
    exec (.wrr .dcnAdr) s = .next { s with dcnAdr := s.din, answer := some ⟨0, 0⟩ } ∧
    exec (.wrr .tcpId) s = .next { s with tcpId := s.din, answer := some ⟨0, 0⟩ } ∧
    exec (.wrr .tag) s = .next { s with flt := 4, answer := some ⟨4, 0⟩ }

/-- R141, R21: RDR answers the register zero-extended, TAG as 2, and changes nothing. -/
def Obligations.RdrAnswersTheNamedRegister : Prop :=
  ∀ s : State, s.flt = 0 →
    exec (.rdr .tag) s = .next { s with answer := some ⟨0, 2⟩ } ∧
    exec (.rdr .ctxId) s = .next { s with answer := some ⟨0, s.ctxId.setWidth 32⟩ } ∧
    exec (.rdr .dcnAdr) s = .next { s with answer := some ⟨0, s.dcnAdr⟩ } ∧
    exec (.rdr .tcpId) s = .next { s with answer := some ⟨0, s.tcpId⟩ }

/-- R142: WRB overwrites the byte at its address with `din[7:0]` and nothing else; an address above 10 faults RANGE. -/
def Obligations.WrbOverwritesOneByte : Prop :=
  ∀ (s : State) (addr : BitVec 4), s.flt = 0 →
    if addr.toNat ≤ 10 then
      ∃ t, exec (.wrb addr) s = .next t ∧ t.buf.read addr.toNat = s.din.extractLsb' 0 8 ∧
        (∀ a, a ≠ addr.toNat → t.buf.read a = s.buf.read a) ∧
        t = { s with buf := t.buf, answer := some ⟨0, 0⟩ }
    else exec (.wrb addr) s = .next { s with flt := 2, answer := some ⟨2, 0⟩ }

/-- R143: RDB answers the byte at its address zero-extended and changes nothing; an address above 10 faults RANGE. -/
def Obligations.RdbAnswersOneByte : Prop :=
  ∀ (s : State) (addr : BitVec 4), s.flt = 0 →
    if addr.toNat ≤ 10 then
      exec (.rdb addr) s = .next { s with answer := some ⟨0, (s.buf.read addr.toNat).setWidth 32⟩ }
    else exec (.rdb addr) s = .next { s with flt := 2, answer := some ⟨2, 0⟩ }

/-- R47: what the host reads back byte by byte of a field packed into a zero buffer: `dc[k]` shifted high and `dc[k-1]`
shifted low, with no source byte before the first or after the last. -/
def Obligations.BytesReadBackAfterPack : Prop :=
  ∀ (s : State) (boff : BitVec 4) (w : BitVec 6) (v : Word) (k : Nat), s.flt = 0 →
    admitted boff.toNat w.toNat → k ≤ w.toNat / 8 →
    let N := w.toNat / 8
    let dc : Nat → Byte := fun k => if k < N then (v >>> (8 * (N - 1 - k))).setWidth 8 else 0
    ∃ u, runCommands [(.clr, 0), (.pack boff w, v), (.rdb (BitVec.ofNat 4 (boff.toNat + k)), 0)] s = some u ∧
      u.answer = some ⟨0, ((dc k <<< 4) ||| (if k = 0 then (0 : Byte) else dc (k - 1) >>> 4)).setWidth 32⟩
end

