-- ==== Sys2Proof/Laws/Bytes.lean ====
section
/-! SUPPORT. Big-endian byte sequences bit by bit (R11, R12): which bit of the value each bit of a source byte is, and back. -/

namespace Sys2Proof.Machine

@[simp] theorem length_beBytes (v : Word) (n : Nat) : (beBytes v n).length = n := by simp [beBytes]

theorem getD_beBytes (v : Word) (n k : Nat) :
    (beBytes v n).getD k 0 = if k < n then (v >>> (8 * (n - 1 - k))).setWidth 8 else 0 := by
  by_cases h : k < n <;> simp [beBytes, h]

/-- Bit `j` of source byte `k` is bit `8 * (n-1-k) + j` of the value. -/
theorem getLsbD_beBytes (v : Word) {n k j : Nat} (hk : k < n) (hj : j < 8) :
    ((beBytes v n).getD k 0).getLsbD j = v.getLsbD (8 * (n - 1 - k) + j) := by
  rw [getD_beBytes, if_pos hk, BitVec.getLsbD_setWidth, BitVec.getLsbD_ushiftRight]
  simp [hj]

/-- Bit `i` of `from_be(dc, N)` is bit `i mod 8` of the byte `i div 8` places before the last. -/
theorem getLsbD_fromBe (dc : List Byte) (h : dc.length ≤ 4) (i : Nat) :
    (fromBe dc).getLsbD i =
      (decide (i < 8 * dc.length) && (dc.getD (dc.length - 1 - i / 8) 0).getLsbD (i % 8)) := by
  induction dc generalizing i with
  | nil => simp [fromBe]
  | cons b rest ih =>
    simp only [List.length_cons] at h ⊢
    have hrest := fun i => ih (by omega) i
    have hor : fromBe (b :: rest) = (b.setWidth 32 <<< (8 * rest.length)) ||| fromBe rest := by
      refine BitVec.add_eq_or_of_and_eq_zero _ _ ?_
      apply BitVec.eq_of_getLsbD_eq
      intro i hi
      rw [BitVec.getLsbD_and, BitVec.getLsbD_shiftLeft, hrest]
      by_cases hlt : i < 8 * rest.length <;> simp [hlt]
    rw [hor, BitVec.getLsbD_or, BitVec.getLsbD_shiftLeft, BitVec.getLsbD_setWidth, hrest]
    by_cases hlt : i < 8 * rest.length
    · simp [hlt, show i < 8 * (rest.length + 1) by omega,
        show rest.length - i / 8 = (rest.length - 1 - i / 8) + 1 by omega]
    · by_cases hin : i < 8 * (rest.length + 1)
      · simp [hlt, hin, show i < 32 by omega,
          show rest.length - i / 8 = 0 by omega, show i - 8 * rest.length = i % 8 by omega,
          show i % 8 < 32 by omega]
      · rw [BitVec.getLsbD_of_ge b _ (by omega)]
        simp [hlt, hin]

/-- Bit `i` of `bswap_N(v)`: the bytes in reverse order, each byte's bits in place. -/
theorem getLsbD_bswap (v : Word) {n : Nat} (hn : n ≤ 4) (i : Nat) :
    (bswap n v).getLsbD i = (decide (i < 8 * n) && v.getLsbD (8 * (n - 1 - i / 8) + i % 8)) := by
  unfold bswap
  rw [getLsbD_fromBe _ (by simpa using hn)]
  simp only [List.length_reverse, length_beBytes]
  by_cases h : i < 8 * n
  · have : (beBytes v n).reverse.getD (n - 1 - i / 8) 0 = (beBytes v n).getD (i / 8) 0 := by
      rw [List.getD_eq_getElem?_getD, List.getD_eq_getElem?_getD, List.getElem?_reverse (by simp; omega)]
      simp only [length_beBytes]
      rw [show n - 1 - (n - 1 - i / 8) = i / 8 by omega]
    rw [this, getLsbD_beBytes v (by omega) (by omega)]
  · simp [h]

end Sys2Proof.Machine
end

