-- ==== Sys2Proof/Laws/Decode.lean ====
section
/-! SUPPORT. The fields of a command word as numbers (R61). -/

namespace Sys2Proof

theorem toNat_opField (cmd : CmdWord) : (opField cmd).toNat = cmd.toNat / 4096 := by
  have := cmd.isLt
  simp only [opField, BitVec.extractLsb'_toNat, Nat.shiftRight_eq_div_pow]
  omega

theorem toNat_aField (cmd : CmdWord) : (aField cmd).toNat = cmd.toNat / 256 % 16 := by
  simp only [aField, BitVec.extractLsb'_toNat, Nat.shiftRight_eq_div_pow]

theorem toNat_zField (cmd : CmdWord) : (zField cmd).toNat = cmd.toNat / 64 % 4 := by
  simp only [zField, BitVec.extractLsb'_toNat, Nat.shiftRight_eq_div_pow]

theorem toNat_wField (cmd : CmdWord) : (wField cmd).toNat = cmd.toNat % 64 := by
  simp only [wField, BitVec.extractLsb'_toNat, Nat.shiftRight_eq_div_pow]
  omega

/-- A word is its four fields, laid out `op a z w`. -/
theorem word_eq_fields (cmd : CmdWord) : opField cmd ++ aField cmd ++ zField cmd ++ wField cmd = cmd := by
  apply BitVec.eq_of_getLsbD_eq
  intro i hi
  simp only [opField, aField, zField, wField, BitVec.getLsbD_append, BitVec.getLsbD_extractLsb']
  by_cases h6 : i < 6
  · simp [h6]
  · by_cases h8 : i - 6 < 2
    · simp [h6, h8, show 6 + (i - 6) = i by omega]
    · by_cases h12 : i - 6 - 2 < 4
      · simp [h6, h8, h12, show 8 + (i - 6 - 2) = i by omega]
      · simp [h6, h8, h12, show 12 + (i - 6 - 2 - 4) = i by omega, show i - 6 - 2 - 4 < 4 by omega]

/-- The fields of a word laid out `op a z w`. -/
theorem fields_of_append (op a : BitVec 4) (z : BitVec 2) (w : BitVec 6) :
    opField (op ++ a ++ z ++ w) = op ∧ aField (op ++ a ++ z ++ w) = a ∧
      zField (op ++ a ++ z ++ w) = z ∧ wField (op ++ a ++ z ++ w) = w := by
  refine ⟨?_, ?_, ?_, ?_⟩ <;>
  · apply BitVec.eq_of_getLsbD_eq
    intro i hi
    simp only [opField, aField, zField, wField, BitVec.getLsbD_extractLsb', BitVec.getLsbD_append]
    interval_cases i <;> simp

end Sys2Proof
end

