-- ==== Sys2Proof/Laws/Memory.lean ====
section
/-! SUPPORT. The wire buffer's laws: read after write, the canonical form kept by every operation, canonical buffers that read
alike are equal, and the buffer as one number bit by bit. -/

namespace Sys2Proof.Machine

@[simp] theorem Memory.read_nil (a : Nat) : Memory.read [] a = 0 := rfl

@[simp] theorem Memory.read_zero (a : Nat) : Memory.zero.read a = 0 := rfl

theorem Memory.read_cons (c : Host.Cell) (m : Memory) (a : Nat) :
    Memory.read (c :: m) a = if c.1 = a then c.2 else Memory.read m a := rfl

theorem Memory.read_filter (m : Memory) (a k : Nat) :
    Memory.read (m.filter fun c => c.1 != a) k = if k = a then 0 else Memory.read m k := by
  induction m with
  | nil => simp
  | cons c m ih =>
    by_cases hc : c.1 = a
    · by_cases hk : k = a
      · simp_all
      · simp_all [Memory.read_cons, eq_comm]
    · by_cases hk : k = a
      · simp_all [Memory.read_cons]
      · simp_all [Memory.read_cons]

theorem Memory.read_insertCell (m : Memory) (a k : Nat) (b : Byte) (h : ∀ c ∈ m, c.1 ≠ a) :
    Memory.read (Memory.insertCell a b m) k = if k = a then b else Memory.read m k := by
  induction m with
  | nil =>
    by_cases hk : a = k
    · simp [Memory.insertCell, Memory.read_cons, hk]
    · simp [Memory.insertCell, Memory.read_cons, hk, Ne.symm hk]
  | cons c m ih =>
    have hc : c.1 ≠ a := h c (by simp)
    have hm := ih fun d hd => h d (by simp [hd])
    unfold Memory.insertCell
    split
    · by_cases hk : k = a
      · simp [Memory.read_cons, hk]
      · simp [Memory.read_cons, hk, Ne.symm hk]
    · by_cases hk : k = a
      · subst hk; simp [Memory.read_cons, hm, hc]
      · simp [Memory.read_cons, hm, hk]

/-- Read after write: the written byte at its address, every other byte as before. -/
theorem Memory.read_write (m : Memory) (a k : Nat) (b : Byte) :
    (m.write a b).read k = if k = a then b else m.read k := by
  unfold Memory.write
  split
  · next h => rw [Memory.read_filter, h]; rfl
  · rw [Memory.read_insertCell _ _ _ _ (by simp), Memory.read_filter]
    split <;> rfl

@[simp] theorem Memory.read_write_same (m : Memory) (a : Nat) (b : Byte) : (m.write a b).read a = b := by
  simp [Memory.read_write]

theorem Memory.read_write_other (m : Memory) {a k : Nat} (b : Byte) (h : k ≠ a) :
    (m.write a b).read k = m.read k := by
  simp [Memory.read_write, h]

/-! ### The canonical form -/

theorem Memory.mem_insertCell {m : Memory} {a : Nat} {b : Byte} {c : Host.Cell}
    (h : c ∈ Memory.insertCell a b m) : c = (a, b) ∨ c ∈ m := by
  induction m with
  | nil => simpa [Memory.insertCell] using h
  | cons d m ih =>
    unfold Memory.insertCell at h
    split at h
    · simpa using h
    · rcases List.mem_cons.1 h with rfl | h
      · simp
      · rcases ih h with h | h <;> simp [h]

theorem Memory.rising_insertCell {m : Memory} {a : Nat} {b : Byte} (hm : m.Pairwise fun c d => c.1 < d.1)
    (ha : ∀ c ∈ m, c.1 ≠ a) : (Memory.insertCell a b m).Pairwise fun c d => c.1 < d.1 := by
  induction m with
  | nil => simp [Memory.insertCell]
  | cons d m ih =>
    have hd := List.pairwise_cons.1 hm
    unfold Memory.insertCell
    split
    · next h =>
      refine List.pairwise_cons.2 ⟨fun c hc => ?_, hm⟩
      rcases List.mem_cons.1 hc with rfl | hc
      · exact h
      · exact h.trans (hd.1 c hc)
    · next h =>
      refine List.pairwise_cons.2 ⟨fun c hc => ?_, ih hd.2 fun c hc => ha c (by simp [hc])⟩
      rcases Memory.mem_insertCell hc with rfl | hc
      · have := ha d (by simp); simp only; omega
      · exact hd.1 c hc

theorem Memory.wf_zero : Memory.zero.wf := by simp [Memory.zero, Memory.wf]

/-- Every write to an address that exists keeps the canonical form. -/
theorem Memory.wf_write {m : Memory} {a : Nat} (b : Byte) (hm : m.wf) (ha : a < 11) : (m.write a b).wf := by
  have hp : (m.filter fun c => c.1 != a).Pairwise fun c d => c.1 < d.1 := hm.1.filter _
  have hx : ∀ c ∈ m.filter fun c => c.1 != a, c.1 < Config.bufBytes ∧ c.2 ≠ Memory.unlisted :=
    fun c hc => hm.2 c (List.mem_filter.1 hc).1
  unfold Memory.write
  simp only
  split
  · exact ⟨hp, hx⟩
  · next hb =>
    refine ⟨Memory.rising_insertCell hp (by simp), fun c hc => ?_⟩
    rcases Memory.mem_insertCell hc with rfl | hc
    · exact ⟨ha, hb⟩
    · exact hx c hc

theorem Memory.read_of_lt {m : Memory} {a : Nat} (h : ∀ c ∈ m, a < c.1) : m.read a = 0 := by
  induction m with
  | nil => rfl
  | cons c m ih =>
    have hc := h c (by simp)
    simp [Memory.read_cons, show c.1 ≠ a by omega, ih fun d hd => h d (by simp [hd])]

/-- Canonical buffers that read alike everywhere are equal. -/
theorem Memory.ext_of_wf {m n : Memory} (hm : m.wf) (hn : n.wf) (h : ∀ a, m.read a = n.read a) : m = n := by
  induction m generalizing n with
  | nil =>
    cases n with
    | nil => rfl
    | cons c n =>
      have := h c.1
      simp only [Memory.read_nil, Memory.read_cons, if_true] at this
      exact absurd this.symm (hn.2 c (by simp)).2
  | cons c m ih =>
    cases n with
    | nil =>
      have := h c.1
      simp only [Memory.read_nil, Memory.read_cons, if_true] at this
      exact absurd this (hm.2 c (by simp)).2
    | cons d n =>
      obtain ⟨hm1, hm2⟩ := List.pairwise_cons.1 hm.1
      obtain ⟨hn1, hn2⟩ := List.pairwise_cons.1 hn.1
      have hcd : c.1 = d.1 := by
        rcases Nat.lt_trichotomy c.1 d.1 with hlt | heq | hlt
        · have := h c.1
          rw [Memory.read_cons, if_pos rfl, Memory.read_of_lt (m := d :: n)] at this
          · exact absurd this (hm.2 c (by simp)).2
          · intro e he
            rcases List.mem_cons.1 he with rfl | he
            · exact hlt
            · exact hlt.trans (hn1 e he)
        · exact heq
        · have := h d.1
          rw [Memory.read_cons d, if_pos rfl, Memory.read_of_lt (m := c :: m)] at this
          · exact absurd this.symm (hn.2 d (by simp)).2
          · intro e he
            rcases List.mem_cons.1 he with rfl | he
            · exact hlt
            · exact hlt.trans (hm1 e he)
      have hc : c = d := by
        have := h c.1
        rw [Memory.read_cons, if_pos rfl, Memory.read_cons, if_pos hcd.symm] at this
        exact Prod.ext hcd this
      subst hc
      congr 1
      refine ih ⟨hm2, fun e he => hm.2 e (by simp [he])⟩ ⟨hn2, fun e he => hn.2 e (by simp [he])⟩ fun a => ?_
      by_cases ha : c.1 = a
      · subst ha
        rw [Memory.read_of_lt hm1, Memory.read_of_lt hn1]
      · simpa [Memory.read_cons, ha] using h a

/-- A canonical buffer lists no address above 10, so all of those read 0. -/
theorem Memory.read_of_ge {m : Memory} (hm : m.wf) {a : Nat} (ha : 11 ≤ a) : m.read a = 0 := by
  have hx : ∀ c ∈ m, c.1 ≠ a := fun c hc => by have : c.1 < 11 := (hm.2 c hc).1; omega
  clear hm
  induction m with
  | nil => rfl
  | cons c m ih => simp [Memory.read_cons, hx c (by simp), ih fun d hd => hx d (by simp [hd])]

/-! ### Wire bits and the buffer as one number -/

/-- Bit `j` of byte `a` is wire bit `8a + j`. -/
theorem Memory.wireBit_byte (m : Memory) (a : Nat) {j : Nat} (h : j < 8) :
    m.wireBit (8 * a + j) = (m.read a).getLsbD j := by
  simp [Memory.wireBit, show (8 * a + j) / 8 = a by omega, show (8 * a + j) % 8 = j by omega]

@[simp] theorem Memory.wireBit_zero (n : Nat) : Memory.zero.wireBit n = false := by simp [Memory.wireBit]

/-- Two bytes are equal when their wire bits are. -/
theorem Memory.read_eq_of_wireBits {m n : Memory} {a : Nat}
    (h : ∀ j, j < 8 → m.wireBit (8 * a + j) = n.wireBit (8 * a + j)) : m.read a = n.read a := by
  apply BitVec.eq_of_getLsbD_eq
  intro j hj
  simpa [Memory.wireBit_byte _ _ hj] using h j hj

theorem Memory.getLsbD_bufintBelow (m : Memory) (k n : Nat) (hk : k ≤ 11) :
    (Memory.bufintBelow m k).getLsbD n = (decide (n < 8 * k) && m.wireBit n) := by
  induction k generalizing n with
  | zero => simp [Memory.bufintBelow]
  | succ k ih =>
    have hbit := fun n => ih n (by omega)
    have hor : Memory.bufintBelow m (k + 1) =
        Memory.bufintBelow m k ||| (((m.read k).setWidth 88) <<< (8 * k)) := by
      refine BitVec.add_eq_or_of_and_eq_zero _ _ ?_
      apply BitVec.eq_of_getLsbD_eq
      intro n hn
      rw [BitVec.getLsbD_and, BitVec.getLsbD_shiftLeft, hbit]
      by_cases h : n < 8 * k <;> simp [h]
    rw [hor, BitVec.getLsbD_or, BitVec.getLsbD_shiftLeft, BitVec.getLsbD_setWidth, hbit]
    by_cases h : n < 8 * k
    · simp [h, show n < 8 * (k + 1) by omega]
    · by_cases h8 : n < 8 * (k + 1)
      · have hw := m.wireBit_byte k (j := n - 8 * k) (by omega)
        rw [show 8 * k + (n - 8 * k) = n by omega] at hw
        simp [h, h8, hw, show n < 88 by omega, show n - 8 * k < 88 by omega]
      · rw [BitVec.getLsbD_of_ge (m.read k) _ (by omega)]
        simp [h, h8]

/-- Bit `n` of `BUFINT(buf)` is wire bit `n`. -/
theorem Memory.getLsbD_bufint (m : Memory) (n : Nat) : m.bufint.getLsbD n = (decide (n < 88) && m.wireBit n) :=
  Memory.getLsbD_bufintBelow m 11 n (by omega)

end Sys2Proof.Machine
end

