-- ==== Sys2Proof/Laws/Packer.lean ====
section
/-! SUPPORT. What `pack` and `unpack` do, byte by byte and wire bit by wire bit; the contract checks; the canonical form. -/

namespace Sys2Proof.Machine

/-! ### The checks -/

/-- The checks pass exactly on the admitted widths at offsets where the field's bytes exist. -/
theorem checkField_ok (boff w : Nat) :
    checkField boff w = .ok () ↔ (w = 8 ∨ w = 16 ∨ w = 24 ∨ w = 32) ∧ boff + w / 8 + 1 ≤ 11 := by
  unfold checkField Config.valueBits Config.bufBytes
  split
  · simp; omega
  · split
    · simp; omega
    · split
      · simp; omega
      · simp; omega

theorem pack_ok {boff w : Nat} (h : checkField boff w = .ok ()) (m : Memory) (v : Word) :
    pack m boff v w = .ok (packField m boff v w) := by simp [pack, h]

theorem unpack_ok {boff w : Nat} (h : checkField boff w = .ok ()) (m : Memory) :
    unpack m boff w = .ok (unpackField m boff w) := by simp [unpack, h]

/-! ### pack -/

theorem read_orBytes (xs : List Byte) (m : Memory) (start a : Nat) :
    (orBytes m start xs).read a =
      if start ≤ a ∧ a < start + xs.length then m.read a ||| xs.getD (a - start) 0 else m.read a := by
  induction xs generalizing m start with
  | nil => simp [orBytes, show ¬ (start ≤ a ∧ a < start) by omega]
  | cons x xs ih =>
    rw [orBytes, ih, Memory.read_write]
    simp only [List.length_cons]
    by_cases ha : a = start
    · subst ha; simp
    · by_cases hin : start ≤ a ∧ a < start + (xs.length + 1)
      · have h1 : start + 1 ≤ a ∧ a < start + 1 + xs.length := by omega
        have h2 : a - start = (a - (start + 1)) + 1 := by omega
        simp [ha, hin, h1, h2]
      · have h1 : ¬ (start + 1 ≤ a ∧ a < start + 1 + xs.length) := by omega
        rw [if_neg h1, if_neg hin, if_neg ha]

theorem wf_orBytes (xs : List Byte) {m : Memory} {start : Nat} (hm : m.wf) (h : start + xs.length ≤ 11) :
    (orBytes m start xs).wf := by
  induction xs generalizing m start with
  | nil => exact hm
  | cons x xs ih =>
    simp only [List.length_cons] at h
    exact ih (Memory.wf_write _ hm (by omega)) (by omega)

/-- The bytes `pack` leaves (R86, R87): each of the N+1 touched bytes is ORed with `packByte`, the rest are as before. -/
theorem read_packField (m : Memory) (boff : Nat) (v : Word) (w a : Nat) :
    (packField m boff v w).read a =
      if boff ≤ a ∧ a ≤ boff + w / 8 then m.read a ||| packByte (beBytes v (w / 8)) (a - boff) else m.read a := by
  unfold packField
  rw [read_orBytes]
  simp only [List.length_map, List.length_range]
  by_cases h : boff ≤ a ∧ a ≤ boff + w / 8
  · rw [if_pos (by omega), if_pos h]
    congr 1
    have : a - boff < w / 8 + 1 := by omega
    simp [this]
  · rw [if_neg (by omega), if_neg h]

theorem wf_packField {m : Memory} {boff : Nat} (v : Word) {w : Nat} (hm : m.wf) (h : boff + w / 8 + 1 ≤ 11) :
    (packField m boff v w).wf := wf_orBytes _ hm (by simp; omega)

/-- The nibbles of `packByte`: its high nibble is the low nibble of `dc[k]`, its low nibble the high one of `dc[k-1]`. -/
theorem getLsbD_packByte (v : Word) {n k j : Nat} (hj : j < 8) :
    (packByte (beBytes v n) k).getLsbD j =
      if j < 4 then decide (1 ≤ k ∧ k ≤ n) && v.getLsbD (8 * (n - k) + j + 4)
      else decide (k < n) && v.getLsbD (8 * (n - 1 - k) + j - 4) := by
  unfold packByte
  rw [BitVec.getLsbD_or, length_beBytes]
  by_cases h4 : j < 4
  · have hhi : (if k < n then (beBytes v n).getD k 0 <<< 4 else (0 : Byte)).getLsbD j = false := by
      split <;> simp [h4]
    rw [hhi, if_pos h4]
    by_cases hk : 1 ≤ k
    · by_cases hkn : k ≤ n
      · rw [if_pos hk, BitVec.getLsbD_ushiftRight, getLsbD_beBytes v (by omega) (by omega)]
        simp only [hk, hkn, and_self, decide_true, Bool.true_and, Bool.false_or]
        congr 1; omega
      · rw [if_pos hk, getD_beBytes, if_neg (by omega)]
        simp [hkn]
    · simp [hk]
  · have hlo : (if 1 ≤ k then (beBytes v n).getD (k - 1) 0 >>> 4 else (0 : Byte)).getLsbD j = false := by
      split
      · rw [BitVec.getLsbD_ushiftRight, BitVec.getLsbD_of_ge _ _ (by omega)]
      · simp
    rw [hlo, if_neg h4, Bool.or_false]
    by_cases hk : k < n
    · rw [if_pos hk, BitVec.getLsbD_shiftLeft, getLsbD_beBytes v hk (by omega)]
      simp only [hj, hk, h4, decide_true, decide_false, Bool.not_false, Bool.true_and]
      congr 1; omega
    · simp [hk]

/-- The wire bits `pack` leaves (R43, R88): wire bit `8*boff+4+j` gains bit `8 * (N-1 - j div 8) + j mod 8` of the value;
every wire bit outside the field is as before. -/
theorem wireBit_packField (m : Memory) (boff : Nat) (v : Word) {w : Nat}
    (hw : w = 8 ∨ w = 16 ∨ w = 24 ∨ w = 32) (n : Nat) :
    (packField m boff v w).wireBit n =
      (m.wireBit n || (decide (8 * boff + 4 ≤ n ∧ n < 8 * boff + 4 + w) &&
        v.getLsbD (8 * (w / 8 - 1 - (n - (8 * boff + 4)) / 8) + (n - (8 * boff + 4)) % 8))) := by
  unfold Memory.wireBit
  rw [read_packField]
  by_cases hin : boff ≤ n / 8 ∧ n / 8 ≤ boff + w / 8
  · rw [if_pos hin, BitVec.getLsbD_or, getLsbD_packByte v (by omega)]
    congr 1
    by_cases h4 : n % 8 < 4
    · rw [if_pos h4]
      by_cases hk : 1 ≤ n / 8 - boff
      · have h1 : (1 ≤ n / 8 - boff ∧ n / 8 - boff ≤ w / 8) := by omega
        have h2 : 8 * boff + 4 ≤ n ∧ n < 8 * boff + 4 + w := by omega
        simp only [h1, h2, and_self, decide_true, Bool.true_and]
        congr 1; omega
      · have h2 : ¬ (8 * boff + 4 ≤ n ∧ n < 8 * boff + 4 + w) := by omega
        simp [hk, h2]
    · rw [if_neg h4]
      by_cases hk : n / 8 - boff < w / 8
      · have h2 : 8 * boff + 4 ≤ n ∧ n < 8 * boff + 4 + w := by omega
        simp only [hk, h2, and_self, decide_true, Bool.true_and]
        congr 1; omega
      · have h2 : ¬ (8 * boff + 4 ≤ n ∧ n < 8 * boff + 4 + w) := by omega
        simp [hk, h2]
  · rw [if_neg hin]
    have h2 : ¬ (8 * boff + 4 ≤ n ∧ n < 8 * boff + 4 + w) := by omega
    simp [h2]

/-! ### unpack -/

/-- Bit `j` of source byte `k` is wire bit `8*boff+4 + 8k+j` (R102). -/
theorem getLsbD_unpackByte (m : Memory) (boff k : Nat) {j : Nat} (hj : j < 8) :
    (unpackByte m boff k).getLsbD j = m.wireBit (8 * boff + 4 + (8 * k + j)) := by
  unfold unpackByte
  rw [BitVec.getLsbD_or, BitVec.getLsbD_ushiftRight, BitVec.getLsbD_shiftLeft]
  by_cases h4 : j < 4
  · rw [show 8 * boff + 4 + (8 * k + j) = 8 * (boff + k) + (4 + j) by omega,
      Memory.wireBit_byte _ _ (by omega)]
    simp [h4]
  · rw [show 8 * boff + 4 + (8 * k + j) = 8 * (boff + k + 1) + (j - 4) by omega,
      Memory.wireBit_byte _ _ (by omega), BitVec.getLsbD_of_ge _ (4 + j) (by omega)]
    simp [h4, hj]

/-- The bits of the value `unpack` answers (R102, R103): those of the field's wire bits, the bytes in reverse order. -/
theorem getLsbD_unpackField (m : Memory) (boff : Nat) {w : Nat} (hw : w = 8 ∨ w = 16 ∨ w = 24 ∨ w = 32) (i : Nat) :
    (unpackField m boff w).getLsbD i =
      (decide (i < w) && m.wireBit (8 * boff + 4 + (8 * (w / 8 - 1 - i / 8) + i % 8))) := by
  unfold unpackField
  rw [getLsbD_fromBe _ (by simp; omega)]
  simp only [List.length_map, List.length_range]
  by_cases h : i < w
  · have hk : w / 8 - 1 - i / 8 < w / 8 := by omega
    simp [h, show i < 8 * (w / 8) by omega, hk, getLsbD_unpackByte _ _ _ (show i % 8 < 8 by omega)]
  · simp [h, show ¬ i < 8 * (w / 8) by omega]

end Sys2Proof.Machine
end

