-- ==== Sys2Proof/Laws/State.lean ====
section
/-! SUPPORT. One lemma per field per update of State, true by rfl, so that no later proof unfolds a record update. -/

namespace Sys2Proof.Machine

@[simp] theorem answerOk_ctxId (v : Word) (s : State) : (answerOk v s).ctxId = s.ctxId := rfl
@[simp] theorem answerOk_dcnAdr (v : Word) (s : State) : (answerOk v s).dcnAdr = s.dcnAdr := rfl
@[simp] theorem answerOk_tcpId (v : Word) (s : State) : (answerOk v s).tcpId = s.tcpId := rfl
@[simp] theorem answerOk_buf (v : Word) (s : State) : (answerOk v s).buf = s.buf := rfl
@[simp] theorem answerOk_flt (v : Word) (s : State) : (answerOk v s).flt = s.flt := rfl
@[simp] theorem answerOk_fi (v : Word) (s : State) : (answerOk v s).fi = s.fi := rfl
@[simp] theorem answerOk_noff (v : Word) (s : State) : (answerOk v s).noff = s.noff := rfl
@[simp] theorem answerOk_host (v : Word) (s : State) : (answerOk v s).host = s.host := rfl
@[simp] theorem answerOk_din (v : Word) (s : State) : (answerOk v s).din = s.din := rfl
@[simp] theorem answerOk_answer (v : Word) (s : State) : (answerOk v s).answer = some ⟨statusOk, v⟩ := rfl
@[simp] theorem answerOk_resets (v : Word) (s : State) : (answerOk v s).resets = s.resets := rfl

@[simp] theorem answerHalted_ctxId (s : State) : (answerHalted s).ctxId = s.ctxId := rfl
@[simp] theorem answerHalted_dcnAdr (s : State) : (answerHalted s).dcnAdr = s.dcnAdr := rfl
@[simp] theorem answerHalted_tcpId (s : State) : (answerHalted s).tcpId = s.tcpId := rfl
@[simp] theorem answerHalted_buf (s : State) : (answerHalted s).buf = s.buf := rfl
@[simp] theorem answerHalted_flt (s : State) : (answerHalted s).flt = s.flt := rfl
@[simp] theorem answerHalted_fi (s : State) : (answerHalted s).fi = s.fi := rfl
@[simp] theorem answerHalted_noff (s : State) : (answerHalted s).noff = s.noff := rfl
@[simp] theorem answerHalted_host (s : State) : (answerHalted s).host = s.host := rfl
@[simp] theorem answerHalted_din (s : State) : (answerHalted s).din = s.din := rfl
@[simp] theorem answerHalted_answer (s : State) : (answerHalted s).answer = some ⟨statusHalted, 0⟩ := rfl
@[simp] theorem answerHalted_resets (s : State) : (answerHalted s).resets = s.resets := rfl

@[simp] theorem raise_ctxId (c : Cause) (s : State) : (raise c s).ctxId = s.ctxId := rfl
@[simp] theorem raise_dcnAdr (c : Cause) (s : State) : (raise c s).dcnAdr = s.dcnAdr := rfl
@[simp] theorem raise_tcpId (c : Cause) (s : State) : (raise c s).tcpId = s.tcpId := rfl
@[simp] theorem raise_buf (c : Cause) (s : State) : (raise c s).buf = s.buf := rfl
@[simp] theorem raise_flt (c : Cause) (s : State) : (raise c s).flt = c.code := rfl
@[simp] theorem raise_fi (c : Cause) (s : State) : (raise c s).fi = s.fi := rfl
@[simp] theorem raise_noff (c : Cause) (s : State) : (raise c s).noff = s.noff := rfl
@[simp] theorem raise_host (c : Cause) (s : State) : (raise c s).host = s.host := rfl
@[simp] theorem raise_din (c : Cause) (s : State) : (raise c s).din = s.din := rfl
@[simp] theorem raise_answer (c : Cause) (s : State) : (raise c s).answer = some ⟨c.code, 0⟩ := rfl
@[simp] theorem raise_resets (c : Cause) (s : State) : (raise c s).resets = s.resets := rfl

@[simp] theorem cursorHome_ctxId (s : State) : (cursorHome s).ctxId = s.ctxId := rfl
@[simp] theorem cursorHome_dcnAdr (s : State) : (cursorHome s).dcnAdr = s.dcnAdr := rfl
@[simp] theorem cursorHome_tcpId (s : State) : (cursorHome s).tcpId = s.tcpId := rfl
@[simp] theorem cursorHome_buf (s : State) : (cursorHome s).buf = s.buf := rfl
@[simp] theorem cursorHome_flt (s : State) : (cursorHome s).flt = s.flt := rfl
@[simp] theorem cursorHome_fi (s : State) : (cursorHome s).fi = 0 := rfl
@[simp] theorem cursorHome_noff (s : State) : (cursorHome s).noff = 0 := rfl
@[simp] theorem cursorHome_host (s : State) : (cursorHome s).host = s.host := rfl
@[simp] theorem cursorHome_din (s : State) : (cursorHome s).din = s.din := rfl
@[simp] theorem cursorHome_answer (s : State) : (cursorHome s).answer = s.answer := rfl
@[simp] theorem cursorHome_resets (s : State) : (cursorHome s).resets = s.resets := rfl

@[simp] theorem cursorNext_ctxId (s : State) : (cursorNext s).ctxId = s.ctxId := rfl
@[simp] theorem cursorNext_dcnAdr (s : State) : (cursorNext s).dcnAdr = s.dcnAdr := rfl
@[simp] theorem cursorNext_tcpId (s : State) : (cursorNext s).tcpId = s.tcpId := rfl
@[simp] theorem cursorNext_buf (s : State) : (cursorNext s).buf = s.buf := rfl
@[simp] theorem cursorNext_flt (s : State) : (cursorNext s).flt = s.flt := rfl
@[simp] theorem cursorNext_fi (s : State) : (cursorNext s).fi = s.fi + 1 := rfl
@[simp] theorem cursorNext_noff (s : State) : (cursorNext s).noff = s.noff + BitVec.ofNat 5 (schemaWidth s.fi / 4) := rfl
@[simp] theorem cursorNext_host (s : State) : (cursorNext s).host = s.host := rfl
@[simp] theorem cursorNext_din (s : State) : (cursorNext s).din = s.din := rfl
@[simp] theorem cursorNext_answer (s : State) : (cursorNext s).answer = s.answer := rfl
@[simp] theorem cursorNext_resets (s : State) : (cursorNext s).resets = s.resets := rfl

@[simp] theorem takeReset_ctxId (s : State) : (takeReset s).ctxId = Config.resetCtxId s.resets := rfl
@[simp] theorem takeReset_dcnAdr (s : State) : (takeReset s).dcnAdr = Config.resetDcnAdr s.resets := rfl
@[simp] theorem takeReset_tcpId (s : State) : (takeReset s).tcpId = Config.resetTcpId s.resets := rfl
@[simp] theorem takeReset_buf (s : State) : (takeReset s).buf = Memory.zero := rfl
@[simp] theorem takeReset_flt (s : State) : (takeReset s).flt = 0 := rfl
@[simp] theorem takeReset_fi (s : State) : (takeReset s).fi = 0 := rfl
@[simp] theorem takeReset_noff (s : State) : (takeReset s).noff = 0 := rfl
@[simp] theorem takeReset_host (s : State) : (takeReset s).host = s.host := rfl
@[simp] theorem takeReset_din (s : State) : (takeReset s).din = s.din := rfl
@[simp] theorem takeReset_answer (s : State) : (takeReset s).answer = none := rfl
@[simp] theorem takeReset_resets (s : State) : (takeReset s).resets = s.resets + 1 := rfl

@[simp] theorem writeReg_tag_ctxId (v : Word) (s : State) : (writeReg .tag v s).ctxId = s.ctxId := rfl
@[simp] theorem writeReg_ctxId_ctxId (v : Word) (s : State) : (writeReg .ctxId v s).ctxId = v.setWidth 16 := rfl
@[simp] theorem writeReg_dcnAdr_ctxId (v : Word) (s : State) : (writeReg .dcnAdr v s).ctxId = s.ctxId := rfl
@[simp] theorem writeReg_tcpId_ctxId (v : Word) (s : State) : (writeReg .tcpId v s).ctxId = s.ctxId := rfl
@[simp] theorem writeReg_tag_dcnAdr (v : Word) (s : State) : (writeReg .tag v s).dcnAdr = s.dcnAdr := rfl
@[simp] theorem writeReg_ctxId_dcnAdr (v : Word) (s : State) : (writeReg .ctxId v s).dcnAdr = s.dcnAdr := rfl
@[simp] theorem writeReg_dcnAdr_dcnAdr (v : Word) (s : State) : (writeReg .dcnAdr v s).dcnAdr = v := rfl
@[simp] theorem writeReg_tcpId_dcnAdr (v : Word) (s : State) : (writeReg .tcpId v s).dcnAdr = s.dcnAdr := rfl
@[simp] theorem writeReg_tag_tcpId (v : Word) (s : State) : (writeReg .tag v s).tcpId = s.tcpId := rfl
@[simp] theorem writeReg_ctxId_tcpId (v : Word) (s : State) : (writeReg .ctxId v s).tcpId = s.tcpId := rfl
@[simp] theorem writeReg_dcnAdr_tcpId (v : Word) (s : State) : (writeReg .dcnAdr v s).tcpId = s.tcpId := rfl
@[simp] theorem writeReg_tcpId_tcpId (v : Word) (s : State) : (writeReg .tcpId v s).tcpId = v := rfl
@[simp] theorem writeReg_buf (r : Reg) (v : Word) (s : State) : (writeReg r v s).buf = s.buf := by cases r <;> rfl
@[simp] theorem writeReg_flt (r : Reg) (v : Word) (s : State) : (writeReg r v s).flt = s.flt := by cases r <;> rfl
@[simp] theorem writeReg_fi (r : Reg) (v : Word) (s : State) : (writeReg r v s).fi = s.fi := by cases r <;> rfl
@[simp] theorem writeReg_noff (r : Reg) (v : Word) (s : State) : (writeReg r v s).noff = s.noff := by cases r <;> rfl
@[simp] theorem writeReg_host (r : Reg) (v : Word) (s : State) : (writeReg r v s).host = s.host := by cases r <;> rfl
@[simp] theorem writeReg_din (r : Reg) (v : Word) (s : State) : (writeReg r v s).din = s.din := by cases r <;> rfl
@[simp] theorem writeReg_answer (r : Reg) (v : Word) (s : State) : (writeReg r v s).answer = s.answer := by cases r <;> rfl
@[simp] theorem writeReg_resets (r : Reg) (v : Word) (s : State) : (writeReg r v s).resets = s.resets := by cases r <;> rfl

end Sys2Proof.Machine
end

