-- ==== Sys2Proof/Laws/Ops.lean ====
section
/-! SUPPORT. What a command can do, once (`runCommand_next`), what each command's own tests and effect are, what the sequencer's
runs come to, and what a step can do. -/

namespace Sys2Proof.Machine

/-! ### A command -/

/-- Everything a command can do (R158): it is refused, it completes, or it faults. -/
theorem runCommand_next {run : State → Except Cause (State × Word)} {s t : State}
    (h : runCommand run s = .next t) :
    (s.flt ≠ 0 ∧ t = answerHalted s) ∨
    (s.flt = 0 ∧ ∃ s' v, run s = .ok (s', v) ∧ t = answerOk v s') ∨
    (s.flt = 0 ∧ ∃ c, run s = .error c ∧ t = raise c s) := by
  unfold runCommand at h
  by_cases hf : s.flt = 0
  · simp only [hf, ne_eq, not_true, if_false] at h
    cases hr : run s with
    | ok p => rw [hr] at h; cases h; exact .inr (.inl ⟨hf, p.1, p.2, rfl, rfl⟩)
    | error c => rw [hr] at h; cases h; exact .inr (.inr ⟨hf, c, rfl, rfl⟩)
  · simp only [ne_eq, hf, not_false_iff, if_true] at h
    cases h
    exact .inl ⟨hf, rfl⟩

theorem runCommand_halted (run : State → Except Cause (State × Word)) {s : State} (h : s.flt ≠ 0) :
    runCommand run s = .next (answerHalted s) := if_pos h

theorem runCommand_ok {run : State → Except Cause (State × Word)} {s s' : State} {v : Word} (h : s.flt = 0)
    (hr : run s = .ok (s', v)) : runCommand run s = .next (answerOk v s') := by simp [runCommand, h, hr]

theorem runCommand_error {run : State → Except Cause (State × Word)} {s : State} {c : Cause} (h : s.flt = 0)
    (hr : run s = .error c) : runCommand run s = .next (raise c s) := by simp [runCommand, h, hr]

/-- A command always answers a next state. -/
theorem runCommand_total (run : State → Except Cause (State × Word)) (s : State) :
    ∃ t, runCommand run s = .next t := by
  unfold runCommand
  split
  · exact ⟨_, rfl⟩
  · split <;> exact ⟨_, rfl⟩

/-! ### The sequencer -/

theorem encodeEntry_tag {s : State} (h : s.fi = 0) :
    encodeEntry s = { s with buf := writeTag s.buf, fi := 1, noff := s.noff + 1 } := by
  simp [encodeEntry, schemaReg, schemaWidth, cursorNext, h]

theorem encodeEntry_ctxId {s : State} (h : s.fi = 1) :
    encodeEntry s = { s with
      buf := packField s.buf (s.noff.toNat / 2) (s.ctxId.setWidth 32) 16, fi := 2, noff := s.noff + 4 } := by
  simp [encodeEntry, schemaReg, schemaWidth, cursorNext, readReg, h]

theorem encodeEntry_dcnAdr {s : State} (h : s.fi = 2) :
    encodeEntry s = { s with
      buf := packField s.buf (s.noff.toNat / 2) s.dcnAdr 32, fi := 3, noff := s.noff + 8 } := by
  simp [encodeEntry, schemaReg, schemaWidth, cursorNext, readReg, h]

theorem encodeEntry_tcpId {s : State} (h : s.fi = 3) :
    encodeEntry s = { s with
      buf := packField s.buf (s.noff.toNat / 2) s.tcpId 32, fi := 0, noff := s.noff + 8 } := by
  simp [encodeEntry, schemaReg, schemaWidth, cursorNext, readReg, h]

theorem decodeEntry_tag {s : State} (h : s.fi = 0) :
    decodeEntry s = { s with fi := 1, noff := s.noff + 1 } := by
  simp [decodeEntry, schemaReg, schemaWidth, cursorNext, h]

theorem decodeEntry_ctxId {s : State} (h : s.fi = 1) :
    decodeEntry s = { s with
      ctxId := (unpackField s.buf (s.noff.toNat / 2) 16).setWidth 16, fi := 2, noff := s.noff + 4 } := by
  simp [decodeEntry, schemaReg, schemaWidth, cursorNext, writeReg, h]

theorem decodeEntry_dcnAdr {s : State} (h : s.fi = 2) :
    decodeEntry s = { s with
      dcnAdr := unpackField s.buf (s.noff.toNat / 2) 32, fi := 3, noff := s.noff + 8 } := by
  simp [decodeEntry, schemaReg, schemaWidth, cursorNext, writeReg, h]

theorem decodeEntry_tcpId {s : State} (h : s.fi = 3) :
    decodeEntry s = { s with
      tcpId := unpackField s.buf (s.noff.toNat / 2) 32, fi := 0, noff := s.noff + 8 } := by
  simp [decodeEntry, schemaReg, schemaWidth, cursorNext, writeReg, h]

/-- The sequencer's encoding run is `encode` of the record registers, and the cursor is home (R116, R118). -/
theorem encodeRun_eq (s : State) :
    encodeRun s = { s with buf := encodeRecord s.ctxId s.dcnAdr s.tcpId, fi := 0, noff := 0 } := by
  simp only [encodeRun, runEntries, encodeStart, cursorHome]
  simp [encodeEntry_tag, encodeEntry_ctxId, encodeEntry_dcnAdr, encodeEntry_tcpId, encodeRecord]

/-- The sequencer's decoding run is `decode` of the buffer into the record registers, and the cursor is home
(R117, R119). -/
theorem decodeRun_eq (s : State) :
    decodeRun s =
      { s with
        ctxId := (decodeRecord s.buf).1
        dcnAdr := (decodeRecord s.buf).2.1
        tcpId := (decodeRecord s.buf).2.2
        fi := 0, noff := 0 } := by
  simp only [decodeRun, runEntries, cursorHome]
  simp [decodeEntry_tag, decodeEntry_ctxId, decodeEntry_dcnAdr, decodeEntry_tcpId, decodeRecord]

/-! ### Each command's tests and effect -/

/-- What a command whose word is legal tests and does, once it is not halted. -/
def bodyOf (i : Instr) (s : State) : Except Cause (State × Word) :=
  match i with
  | .clr => .ok ({ s with buf := Memory.zero }, 0)
  | .tag => .ok ({ s with buf := writeTag s.buf }, 0)
  | .pack boff w =>
    match checkField boff.toNat w.toNat with
    | .error c => .error c
    | .ok () => .ok ({ s with buf := packField s.buf boff.toNat (fieldValue w.toNat s.din) w.toNat }, 0)
  | .unpack boff w =>
    match checkField boff.toNat w.toNat with
    | .error c => .error c
    | .ok () => .ok (s, unpackField s.buf boff.toNat w.toNat)
  | .encode => .ok (encodeRun s, 0)
  | .decode => .ok (decodeRun s, 0)
  | .wrr r => if r = .tag then .error .illcmd else .ok (writeReg r s.din s, 0)
  | .rdr r => .ok (s, readReg r s)
  | .wrb addr =>
    match checkAddr addr.toNat with
    | .error c => .error c
    | .ok () => .ok ({ s with buf := s.buf.write addr.toNat (byteValue s.din) }, 0)
  | .rdb addr =>
    match checkAddr addr.toNat with
    | .error c => .error c
    | .ok () => .ok (s, (s.buf.read addr.toNat).setWidth 32)

/-- Every instruction is one command of the shared form. -/
theorem exec_eq (i : Instr) (s : State) : exec i s = runCommand (bodyOf i) s := by
  cases i with
  | pack boff w =>
    simp only [exec, execPack, runCommand, bodyOf, pack, offsetOf, widthOf]
    cases checkField boff.toNat w.toNat <;> rfl
  | unpack boff w =>
    simp only [exec, execUnpack, runCommand, bodyOf, unpack, offsetOf, widthOf]
    cases checkField boff.toNat w.toNat <;> rfl
  | _ => rfl

theorem exec_total (i : Instr) (s : State) : ∃ t, exec i s = .next t := by
  rw [exec_eq]; exact runCommand_total _ _

/-- The low bits of PACK's operand are those of `din`. -/
theorem getLsbD_fieldValue (w : Nat) (d : Word) (j : Nat) :
    (fieldValue w d).getLsbD j = (decide (j < w) && d.getLsbD j) := by
  simp only [fieldValue, BitVec.getLsbD_setWidth]
  by_cases h : j < 32
  · simp [h]
  · simp [h, BitVec.getLsbD_of_ge d j (by omega)]

theorem wf_writeTag {m : Memory} (h : m.wf) : (writeTag m).wf := Memory.wf_write _ h (by omega)

theorem wf_encodeRecord (c : BitVec 16) (d t : BitVec 32) : (encodeRecord c d t).wf :=
  wf_packField _ (wf_packField _ (wf_packField _ (wf_writeTag Memory.wf_zero) (by omega)) (by omega)) (by omega)

theorem code_ne_zero (c : Cause) : c.code ≠ 0 := by cases c <;> decide

theorem code_values (c : Cause) : c.code = 1 ∨ c.code = 2 ∨ c.code = 3 ∨ c.code = 4 := by cases c <;> decide

/-- What no completing command changes: `flt`, the host's moves, the port `din`, the count of resets. -/
theorem bodyOf_keeps {i : Instr} {s s' : State} {v : Word} (h : bodyOf i s = .ok (s', v)) :
    s'.flt = s.flt ∧ s'.host = s.host ∧ s'.din = s.din ∧ s'.resets = s.resets := by
  cases i with
  | encode => rw [← show _ = s' from congrArg Prod.fst (Except.ok.inj h), encodeRun_eq]; simp
  | decode => rw [← show _ = s' from congrArg Prod.fst (Except.ok.inj h), decodeRun_eq]; simp
  | wrr r => cases r <;> simp [bodyOf] at h <;> (obtain ⟨rfl, rfl⟩ := h; simp)
  | _ =>
    simp only [bodyOf] at h
    try split at h
    all_goals first | (cases h; simp) | cases h

/-- A completing command leaves the cursor as it was, or, after ENCODE and DECODE, home. -/
theorem bodyOf_cursor {i : Instr} {s s' : State} {v : Word} (h : bodyOf i s = .ok (s', v)) :
    (s'.fi = s.fi ∧ s'.noff = s.noff) ∨ (s'.fi = 0 ∧ s'.noff = 0 ∧ (i = .encode ∨ i = .decode)) := by
  cases i with
  | encode => rw [← show _ = s' from congrArg Prod.fst (Except.ok.inj h), encodeRun_eq]; simp
  | decode => rw [← show _ = s' from congrArg Prod.fst (Except.ok.inj h), decodeRun_eq]; simp
  | wrr r => cases r <;> simp [bodyOf] at h <;> (obtain ⟨rfl, rfl⟩ := h; simp)
  | _ =>
    simp only [bodyOf] at h
    try split at h
    all_goals first | (cases h; simp) | cases h

/-- Everything a completing command leaves of the buffer's canonical form: kept. -/
theorem wf_bodyOf {i : Instr} {s s' : State} {v : Word} (hm : s.buf.wf) (h : bodyOf i s = .ok (s', v)) :
    s'.buf.wf := by
  cases i with
  | clr => cases h; exact Memory.wf_zero
  | tag => cases h; exact wf_writeTag hm
  | pack boff w =>
    simp only [bodyOf] at h
    split at h
    · cases h
    · next hc => cases h; exact wf_packField _ hm ((checkField_ok _ _).1 hc).2
  | unpack boff w =>
    simp only [bodyOf] at h
    split at h <;> cases h
    exact hm
  | encode =>
    rw [← show _ = s' from congrArg Prod.fst (Except.ok.inj h), encodeRun_eq]
    exact wf_encodeRecord _ _ _
  | decode =>
    rw [← show _ = s' from congrArg Prod.fst (Except.ok.inj h), decodeRun_eq]
    exact hm
  | wrr r =>
    simp only [bodyOf] at h
    split at h <;> cases h
    simpa using hm
  | rdr r => cases h; exact hm
  | wrb addr =>
    simp only [bodyOf] at h
    split at h
    · cases h
    · next hc =>
      cases h
      unfold checkAddr Config.bufBytes at hc
      split at hc
      · exact Memory.wf_write _ hm ‹_›
      · cases hc
  | rdb addr =>
    simp only [bodyOf] at h
    split at h <;> cases h
    exact hm

/-! ### A step -/

/-- Everything a step can do (R16, R181): idle with no move left, take a reset request, run a decoded command, or run a
command whose word does not decode. -/
theorem step_next {s t : State} (h : step s = .next t) :
    (s.host = [] ∧ t = s) ∨
    (∃ rest, s.host = .reset :: rest ∧ t = takeReset { s with host := rest }) ∨
    (∃ cmd d rest i, s.host = .command cmd d :: rest ∧ decodeWord cmd = .ok i ∧
      exec i { s with host := rest, din := d } = .next t) ∨
    (∃ cmd d rest e, s.host = .command cmd d :: rest ∧ decodeWord cmd = .error e ∧
      illegalCommand { s with host := rest, din := d } = .next t) := by
  unfold step nextMove at h
  split at h
  · next hm =>
    split at hm <;> try cases hm
    cases h; exact .inl ⟨‹_›, rfl⟩
  · next hm =>
    split at hm <;> cases hm
    cases h; exact .inr (.inl ⟨_, ‹_›, rfl⟩)
  · next hm =>
    split at hm <;> cases hm
    split at h
    · exact .inr (.inr (.inl ⟨_, _, _, _, ‹_›, ‹_›, h⟩))
    · exact .inr (.inr (.inr ⟨_, _, _, _, ‹_›, ‹_›, h⟩))

end Sys2Proof.Machine
end

