-- ==== Sys2Proof/Laws/PerInstr.lean ====
section
/-! SUPPORT. The per-instruction family WordForm: the word of every instruction has the layout of R61, its reserved bits zero and
its operation code, `a` and `w` where the table of R62 puts them. -/

namespace Sys2Proof.Laws.WordForm

/-- The encoder's word has the fields R61 and R62 give the instruction, and `z` is zero. -/
def Statement (i : Instr) : Prop :=
  opField (encodeWord i) = opcodeOf i ∧ aField (encodeWord i) = aOperand i ∧
    zField (encodeWord i) = 0 ∧ wField (encodeWord i) = wOperand i

theorem clr : Statement .clr := fields_of_append _ _ _ _
theorem tag : Statement .tag := fields_of_append _ _ _ _
theorem pack (boff : BitVec 4) (w : BitVec 6) : Statement (.pack boff w) := fields_of_append _ _ _ _
theorem unpack (boff : BitVec 4) (w : BitVec 6) : Statement (.unpack boff w) := fields_of_append _ _ _ _
theorem encode : Statement .encode := fields_of_append _ _ _ _
theorem decode : Statement .decode := fields_of_append _ _ _ _
theorem wrr (reg : Reg) : Statement (.wrr reg) := fields_of_append _ _ _ _
theorem rdr (reg : Reg) : Statement (.rdr reg) := fields_of_append _ _ _ _
theorem wrb (addr : BitVec 4) : Statement (.wrb addr) := fields_of_append _ _ _ _
theorem rdb (addr : BitVec 4) : Statement (.rdb addr) := fields_of_append _ _ _ _

end Sys2Proof.Laws.WordForm
end

