-- ==== Sys2Proof/Laws/Record.lean ====
section
/-! SUPPORT. The encoded record wire bit by wire bit (R42, R43) and the decoded record bit by bit (R113). -/

namespace Sys2Proof.Machine

/-- TAG writes wire bits 0 to 3 and no others: of those, wire bit 1 alone is 1. -/
theorem wireBit_writeTag (m : Memory) (n : Nat) :
    (writeTag m).wireBit n = if n < 4 then decide (n = 1) else m.wireBit n := by
  unfold Memory.wireBit writeTag
  rw [Memory.read_write]
  by_cases h0 : n / 8 = 0
  · have hb : ∀ x : Byte, ∀ j, j < 8 →
        ((x &&& 0xF0) ||| (Config.tagValue.setWidth 8)).getLsbD j = if j < 4 then decide (j = 1) else x.getLsbD j := by
      intro x j hj
      unfold Config.tagValue
      rw [BitVec.getLsbD_or, BitVec.getLsbD_and]
      interval_cases j <;> simp
    rw [if_pos h0, hb _ _ (by omega), h0]
    simp [show n % 8 = n by omega]
  · rw [if_neg h0, if_neg (by omega)]

/-- The bit of a field's value that wire bit `start + j` holds (R43). -/
def fieldBitAt (nBytes j : Nat) : Nat := 8 * (nBytes - 1 - j / 8) + j % 8

/-- Every wire bit of the encoded record (R42, R43): the tag, the three fields, the padding. -/
theorem wireBit_encodeRecord (c : BitVec 16) (d t : BitVec 32) (n : Nat) :
    (encodeRecord c d t).wireBit n =
      if n < 4 then decide (n = 1)
      else if n < 20 then c.getLsbD (fieldBitAt 2 (n - 4))
      else if n < 52 then d.getLsbD (fieldBitAt 4 (n - 20))
      else if n < 84 then t.getLsbD (fieldBitAt 4 (n - 52))
      else false := by
  unfold encodeRecord fieldBitAt
  simp only
  rw [wireBit_packField _ _ _ (by omega), wireBit_packField _ _ _ (by omega), wireBit_packField _ _ _ (by omega),
    wireBit_writeTag, Memory.wireBit_zero, BitVec.getLsbD_setWidth]
  by_cases h4 : n < 4
  · simp [h4, show ¬ 4 ≤ n by omega, show ¬ 20 ≤ n by omega, show ¬ 52 ≤ n by omega]
  · by_cases h20 : n < 20
    · simp [h4, h20, show 4 ≤ n by omega, show ¬ 20 ≤ n by omega, show ¬ 52 ≤ n by omega,
        show 8 * (1 - (n - 4) / 8) + (n - 4) % 8 < 32 by omega]
    · by_cases h52 : n < 52
      · simp [h4, h20, h52, show 20 ≤ n by omega, show ¬ 52 ≤ n by omega]
      · by_cases h84 : n < 84
        · simp [h4, h20, h52, h84, show 52 ≤ n by omega]
        · simp [h4, h20, h52, h84]

theorem getLsbD_decodeCtxId (m : Memory) {i : Nat} (h : i < 16) :
    (decodeRecord m).1.getLsbD i = m.wireBit (4 + fieldBitAt 2 i) := by
  simp [decodeRecord, getLsbD_unpackField, fieldBitAt, h]

theorem getLsbD_decodeDcnAdr (m : Memory) {i : Nat} (h : i < 32) :
    (decodeRecord m).2.1.getLsbD i = m.wireBit (20 + fieldBitAt 4 i) := by
  simp only [decodeRecord]
  rw [getLsbD_unpackField _ _ (by omega)]
  simp [fieldBitAt, h]

theorem getLsbD_decodeTcpId (m : Memory) {i : Nat} (h : i < 32) :
    (decodeRecord m).2.2.getLsbD i = m.wireBit (52 + fieldBitAt 4 i) := by
  simp only [decodeRecord]
  rw [getLsbD_unpackField _ _ (by omega)]
  simp [fieldBitAt, h]

end Sys2Proof.Machine
end

