-- ==== Sys2Proof/Tests/Slice0.lean ====
section
/-! SUPPORT. The model's own tests: words of the spec's encoding, the vectors of 95_test_vectors.md (named in each test's
comment), one step each, and a witness for every statement that has hypotheses. -/

namespace Sys2Proof.Tests

open Sys2Proof.Machine

/-- A buffer from its eleven bytes, `buf[0]` first. -/
def bufOf (bytes : List Byte) : Memory :=
  bytes.zipIdx.foldl (fun m p => m.write p.2 p.1) Memory.zero

/-- The eleven bytes of a buffer. -/
def bytesOf (m : Memory) : List Byte := (List.range 11).map m.read

/-- The block with a buffer and a record, not halted. -/
def withBuf (bytes : List Byte) (c : BitVec 16 := 0) (d t : BitVec 32 := 0) : State :=
  { State.reset with buf := bufOf bytes, ctxId := c, dcnAdr := d, tcpId := t }

/-- One step on a command the host presents. -/
def present (cmd : CmdWord) (din : Word) (s : State) : Host.Outcome State Fault Refusal :=
  step { s with host := [.command cmd din] }

/-- What a test looks at: the status, `dout`, the buffer and `flt` a command leaves. -/
def seen (o : Host.Outcome State Fault Refusal) : Option (Option Response × List Byte × BitVec 3) :=
  match o with
  | .next t => some (t.answer, bytesOf t.buf, t.flt)
  | .fault _ => none
  | .refused _ => none

/-- The record a command leaves. -/
def record (o : Host.Outcome State Fault Refusal) : Option (BitVec 16 × BitVec 32 × BitVec 32) :=
  match o with
  | .next t => some (t.ctxId, t.dcnAdr, t.tcpId)
  | .fault _ => none
  | .refused _ => none

/-- The buffer and record of vector E4, all nibbles distinct. -/
def e4 : State :=
  withBuf [0x22, 0x41, 0x93, 0xB8, 0xDA, 0xFC, 0x1E, 0x30, 0x52, 0x74, 0x06] 0x1234 0x89ABCDEF 0x01234567

/-- The buffer of vector X5. -/
def x5 : State := withBuf [0x10, 0x32, 0x54, 0x76, 0x98, 0xBA, 0xDC, 0xFE, 0x10, 0x32, 0x54]

/-! ### Well-formedness and decoding -/

theorem test_wellFormed_refuses_wrr_tag : Instr.wellFormed (.wrr .tag) = false := by decide
theorem test_wellFormed_accepts_out_of_range_operands :
    Instr.wellFormed (.pack 15 63) = true ∧ Instr.wellFormed (.wrb 15) = true ∧
      Instr.wellFormed (.rdr .tag) = true := by decide

-- op a z w written out bit by bit from R61 and R62
theorem test_decode_clr : decodeWord 0b0001_0000_00_000000 = .ok .clr := rfl
theorem test_decode_tag : decodeWord 0b0010_0000_00_000000 = .ok .tag := rfl
theorem test_decode_pack : decodeWord 0b0011_0110_00_100000 = .ok (.pack 6 32) := rfl
theorem test_decode_unpack : decodeWord 0b0100_1001_00_001000 = .ok (.unpack 9 8) := rfl
theorem test_decode_encode : decodeWord 0b0101_0000_00_000000 = .ok .encode := rfl
theorem test_decode_decode : decodeWord 0b0110_0000_00_000000 = .ok .decode := rfl
theorem test_decode_wrr : decodeWord 0b0111_0011_00_000000 = .ok (.wrr .tcpId) := rfl
theorem test_decode_rdr : decodeWord 0b1000_0000_00_000000 = .ok (.rdr .tag) := rfl
theorem test_decode_wrb : decodeWord 0b1001_1010_00_000000 = .ok (.wrb 10) := rfl
theorem test_decode_rdb : decodeWord 0b1010_0001_00_000000 = .ok (.rdb 1) := rfl
-- F1, F2, F3, F6, F9, F4, F5, F14, F13, F15
theorem test_decode_illegal :
    decodeWord 0x0000 = .error .reservedOp ∧ decodeWord 0xFFFF = .error .reservedOp ∧
    decodeWord 0xB000 = .error .reservedOp ∧ decodeWord 0x2040 = .error .reservedBits ∧
    decodeWord 0x3050 = .error .reservedBits ∧ decodeWord 0x1001 = .error .unusedField ∧
    decodeWord 0x1100 = .error .unusedField ∧ decodeWord 0x7101 = .error .unusedField ∧
    decodeWord 0x7400 = .error .noSuchRegister ∧ decodeWord 0x8400 = .error .noSuchRegister :=
  ⟨rfl, rfl, rfl, rfl, rfl, rfl, rfl, rfl, rfl, rfl⟩
-- F12
theorem test_word_of_wrr_tag_is_illegal : legalWord 0x7000 = false := by decide
theorem test_decodeTableWord : decodeTableWord 16 0x3220 = some (.pack 2 32) ∧ decodeTableWord 16 0 = none := by
  decide

/-! ### One step each -/

-- T1
theorem test_clr : seen (present 0x1000 0 (withBuf [0xF2, 0xFF, 0xFF, 0xFF, 0xFF, 0xFF, 0xFF, 0xFF, 0xFF, 0xFF, 0x0F]))
    = some (some ⟨0, 0⟩, [0, 0, 0, 0, 0, 0, 0, 0, 0, 0, 0], 0) := by decide
-- T4
theorem test_tag : seen (present 0x2000 0 (withBuf [0x3D])) =
    some (some ⟨0, 0⟩, [0x32, 0, 0, 0, 0, 0, 0, 0, 0, 0, 0], 0) := by decide
-- K14: a dirty region
theorem test_pack_or : seen (present 0x3010 0x00001234 (withBuf [0x30, 0x14, 0x02])) =
    some (some ⟨0, 0⟩, [0x30, 0x55, 0x03, 0, 0, 0, 0, 0, 0, 0, 0], 0) := by decide
-- F30: one past the last offset for 32 bits; nothing is written
theorem test_pack_range : seen (present 0x3720 0xFFFFFFFF e4) =
    some (some ⟨2, 0⟩, [0x22, 0x41, 0x93, 0xB8, 0xDA, 0xFC, 0x1E, 0x30, 0x52, 0x74, 0x06], 2) := by decide
-- U7: the last offset for 32 bits
theorem test_unpack : (seen (present 0x4620 0 x5)).map Prod.fst = some (some ⟨0, 0xED0F2143⟩) := by decide
-- F39
theorem test_unpack_unsup : (seen (present 0x4004 0 x5)).map Prod.fst = some (some ⟨3, 0⟩) := by decide
-- E4
theorem test_encode : seen (present 0x5000 0 { e4 with buf := bufOf [0xFF, 0xFF] }) =
    some (some ⟨0, 0⟩, [0x22, 0x41, 0x93, 0xB8, 0xDA, 0xFC, 0x1E, 0x30, 0x52, 0x74, 0x06], 0) := by decide
-- X5
theorem test_decode : record (present 0x6000 0 x5) = some (0x2143, 0x6587A9CB, 0xED0F2143) := by decide
-- H2: din[31:16] is not read
theorem test_wrr : record (present 0x7100 0x12345678 x5) = some (0x5678, 0, 0) := by decide
-- H13
theorem test_wrr_tag : (seen (present 0x7000 5 (withBuf []))).map (fun p => (p.1, p.2.2)) = some (some ⟨4, 0⟩, 4) := by
  decide
-- H5
theorem test_rdr_tag : (seen (present 0x8000 0 e4)).map Prod.fst = some (some ⟨0, 2⟩) := by decide
theorem test_rdr : (seen (present 0x8200 0 e4)).map Prod.fst = some (some ⟨0, 0x89ABCDEF⟩) := by decide
-- H9: din[31:8] is not read, the whole byte is replaced
theorem test_wrb : seen (present 0x9000 0x000001FF (withBuf [0x21])) =
    some (some ⟨0, 0⟩, [0xFF, 0, 0, 0, 0, 0, 0, 0, 0, 0, 0], 0) := by decide
-- F40
theorem test_wrb_range : (seen (present 0x9B00 0 e4)).map Prod.fst = some (some ⟨2, 0⟩) := by decide
-- P1 step 14, on the buffer of E4
theorem test_rdb : (seen (present 0xA900 0 e4)).map Prod.fst = some (some ⟨0, 0x74⟩) := by decide
-- HL2, HL4: halted, flt keeps its cause
theorem test_halted : seen (present 0xA000 0 { e4 with flt := 2 }) =
    some (some ⟨7, 0⟩, [0x22, 0x41, 0x93, 0xB8, 0xDA, 0xFC, 0x1E, 0x30, 0x52, 0x74, 0x06], 2) ∧
    (seen (present 0x0000 0 { e4 with flt := 1 })).map (fun p => p.2.2) = some 1 := by decide
-- F11: ILLCMD before WIDTH; F21: WIDTH before RANGE; F28: UNSUP before RANGE
theorem test_priority : (seen (present 0x3046 0 e4)).map (fun p => p.2.2) = some 4 ∧
    (seen (present 0x3F06 0 e4)).map (fun p => p.2.2) = some 1 ∧
    (seen (present 0x3F0C 0 e4)).map (fun p => p.2.2) = some 3 := by decide
-- HL6, the reset half: the record registers are not looked at
theorem test_reset_request : seen (step { e4 with flt := 3, host := [.reset] }) =
    some (none, [0, 0, 0, 0, 0, 0, 0, 0, 0, 0, 0], 0) := by rfl

/-! ### A witness for every statement with hypotheses, one for each clause -/

/-- Halted, with a command to come. -/
def halted4 : State := { e4 with flt := 4, host := [.command 0x1000 0] }

theorem witness_DecodeOfEncodeIsIdentity : Instr.wellFormed (.pack 15 63) = true := by decide

theorem witness_DecodedWordIsTheCommandsOnlyWord : decodeWord 0x3F3F = .ok (.pack 15 63) := rfl

theorem witness_IllegalWordsFaultIllcmd :
    halted4.host = .command 0x1000 0 :: [] ∧ ({ halted4 with flt := 0 } : State).flt = 0 ∧
    [0x0FFF, 0xB000, 0xFFFF, 0x2040, 0x1001, 0x6F00, 0xA001, 0x7000, 0x7400, 0x8400].all
      (fun cmd => decide (illegalWord cmd)) = true := ⟨rfl, rfl, by decide⟩

theorem witness_IllegalWordsFaultIllcmd_legal :
    [0x1000, 0x3F3F, 0x4F00, 0x7100, 0x7300, 0x8000, 0x8300, 0x9F00, 0xAF00].all
      (fun cmd => decide (¬ illegalWord cmd)) = true := by decide

theorem witness_StepRunsTheDecodedCommand :
    halted4.host = .command 0x1000 0 :: [] ∧ decodeWord 0x1000 = .ok .clr := ⟨rfl, rfl⟩

theorem witness_StepWithoutMovesIsIdle : e4.host = [] := rfl

theorem witness_FirstTestThatFiresDecides :
    halted4.host = .command 0x1000 0 :: [] ∧ halted4.flt ≠ 0 ∧ illegalWord 0x30C0 ∧
    [0x3F3F, 0x3B0C, 0x3720, 0x9B00, 0x3620, 0x9A00].all (fun cmd => decide (¬ illegalWord cmd)) = true :=
  ⟨rfl, by decide, by decide, by decide⟩

theorem witness_FaultEntryChangesNothingElse :
    e4.flt = 0 ∧ (∃ t, exec (.pack 0 0) e4 = .next t ∧ t.flt = 1) ∧ (∃ t, exec (.wrb 11) e4 = .next t ∧ t.flt = 2) ∧
    (∃ t, exec (.unpack 0 4) e4 = .next t ∧ t.flt = 3) ∧ ∃ t, exec (.wrr .tag) e4 = .next t ∧ t.flt = 4 :=
  ⟨rfl, ⟨_, rfl, rfl⟩, ⟨_, rfl, rfl⟩, ⟨_, rfl, rfl⟩, _, rfl, rfl⟩

theorem witness_HaltedCommandsDoNothing :
    halted4.flt ≠ 0 ∧ halted4.host = .command 0x1000 0 :: [] ∧ halted4.host.head? ≠ some .reset ∧
    ∃ t, step halted4 = .next t := ⟨by decide, rfl, by decide, _, rfl⟩

theorem witness_FltChangesByFaultOrResetOnly :
    (∃ t, step { halted4 with host := [.reset] } = .next t ∧ t.flt ≠ halted4.flt) ∧
    ∃ t, step { e4 with host := [.command 0xFFFF 0] } = .next t ∧ t.flt ≠ e4.flt :=
  ⟨⟨_, rfl, by decide⟩, _, rfl, by decide⟩

theorem witness_FaultsDependOnTheWordAlone :
    ∃ t₁ t₂, e4.flt = x5.flt ∧ step { e4 with host := [.command 0x3720 1] } = .next t₁ ∧
      step { x5 with host := [.command 0x3720 2] } = .next t₂ := ⟨_, _, rfl, rfl, rfl⟩

theorem witness_EveryCommandAnswersStatusAndData :
    halted4.host = .command 0x1000 0 :: [] ∧ halted4.flt ≠ 0 ∧
    (∃ t, step { e4 with host := [.command 0x9B00 0] } = .next t ∧ t.answer = some ⟨2, 0⟩) ∧
    ∃ t, step { e4 with host := [.command 0xAA00 0] } = .next t ∧ t.answer = some ⟨0, 6⟩ :=
  ⟨rfl, by decide, ⟨_, rfl, rfl⟩, _, rfl, rfl⟩

theorem witness_ResetRequestResetsTheBlock :
    { halted4 with host := [.reset] }.host = .reset :: [] ∧ { halted4 with host := [.reset] }.halted = true ∧
    ∃ t, step { halted4 with host := [.reset] } = .next t ∧ t.halted = false := ⟨rfl, rfl, _, rfl, rfl⟩

theorem witness_EveryStepKeepsInv :
    { e4 with host := [.command 0x3010 0xFFFF] }.Inv ∧
    ∃ t, step { e4 with host := [.command 0x3010 0xFFFF] } = .next t := ⟨by decide, _, rfl⟩

theorem witness_OnlyTheListedCommandsWrite :
    (∃ t, exec .decode { x5 with fi := 1 } = .next t ∧ t.ctxId ≠ x5.ctxId ∧ t.dcnAdr ≠ x5.dcnAdr ∧ t.tcpId ≠ x5.tcpId) ∧
    (∃ t, exec .clr x5 = .next t ∧ t.buf ≠ x5.buf) ∧
    ∃ t, exec (.wrr .ctxId) { x5 with din := 9 } = .next t ∧ t.ctxId ≠ x5.ctxId :=
  ⟨⟨_, rfl, by decide, by decide, by decide⟩, ⟨_, rfl, by decide⟩, _, rfl, by decide⟩

theorem witness_ReadsHaveNoSideEffect :
    (∃ t, exec (.unpack 6 32) e4 = .next t ∧ t.flt = 0) ∧ (∃ t, exec (.rdr .ctxId) e4 = .next t ∧ t.flt = 0) ∧
    (∃ t, exec (.rdb 10) e4 = .next t ∧ t.flt = 0) ∧ ∃ t, exec .decode e4 = .next t ∧ t.flt = 0 :=
  ⟨⟨_, rfl, rfl⟩, ⟨_, rfl, rfl⟩, ⟨_, rfl, rfl⟩, _, rfl, rfl⟩

theorem witness_UnreadDataBitsHaveNoEffect :
    readsAlike (.pack 0 16) 0xFFFF1234 0x00001234 ∧ readsAlike (.wrr .ctxId) 0x12345678 0x00005678 ∧
    readsAlike (.wrb 0) 0x1FF 0x0FF ∧ readsAlike (.wrr .dcnAdr) 5 5 ∧ readsAlike .encode 1 2 := by
  refine ⟨?_, ?_, ?_, rfl, trivial⟩
  · show ∀ j, j < 16 → _
    decide
  · show ∀ j, j < 16 → _
    decide
  · show ∀ j, j < 8 → _
    decide

/-- The one hypothesis, `s.flt = 0`, of ClrZeroesTheBuffer, TagWritesTheLowNibbleOfByteZero, EncodeIsTagThenThreePacks,
EncodeWritesTheByteMap, EncodePlacesTheTag, EncodeClearsThePadding, DecodeIsThreeUnpacks, WrrWritesTheNamedRegister
and RdrAnswersTheNamedRegister. -/
theorem witness_not_halted : e4.flt = 0 ∧ x5.flt = 0 := ⟨rfl, rfl⟩

theorem witness_PackOrsTheSourceNibbles :
    e4.flt = 0 ∧ admitted (9#4).toNat (8#6).toNat ∧ admitted (8#4).toNat (16#6).toNat ∧
    admitted (7#4).toNat (24#6).toNat ∧ admitted (6#4).toNat (32#6).toNat := by decide

/-- One field for each clause, at its boundary: widths 0 and 6, 4 and 36, the first offset out of range and the last in
range for 32 bits. -/
theorem witness_PackAndUnpackRefuseAlike :
    unpack x5.buf 0 0 = .error .width ∧ unpack x5.buf 15 6 = .error .width ∧ unpack x5.buf 0 4 = .error .unsup ∧
    unpack x5.buf 0 36 = .error .unsup ∧ unpack x5.buf 7 32 = .error .range ∧
    unpack x5.buf 6 32 = .ok 0xED0F2143 := ⟨rfl, rfl, rfl, rfl, rfl, rfl⟩

theorem witness_UnpackAnswersTheJoinedNibbles :
    x5.flt = 0 ∧ admitted (9#4).toNat (8#6).toNat ∧ admitted (8#4).toNat (16#6).toNat ∧
    admitted (7#4).toNat (24#6).toNat ∧ admitted (6#4).toNat (32#6).toNat := by decide

theorem witness_PackClosedForm : admitted 0 8 ∧ admitted 6 32 := by decide

theorem witness_UnpackClosedForm : admitted 0 8 ∧ admitted 6 32 := by decide

theorem witness_PackedFieldBitOrder : admitted 6 32 ∧ ∀ n, inField 6 32 n → Memory.zero.wireBit n = false :=
  ⟨by decide, fun n _ => Memory.wireBit_zero n⟩

theorem witness_PackAlgebra :
    ∃ m₁ m₂ m₁₂ m₂₁, pack e4.buf 0 0x4321 16 = .ok m₁ ∧ pack m₁ 1 0xFF 8 = .ok m₁₂ ∧
      pack e4.buf 1 0xFF 8 = .ok m₂ ∧ pack m₂ 0 0x4321 16 = .ok m₂₁ := ⟨_, _, _, _, rfl, rfl, rfl, rfl⟩

theorem witness_PackOnADirtyRegion :
    (admitted 0 16 ∧ (0x1234 : Word).toNat < 2 ^ 16) ∧
    (admitted 6 32 ∧ (0xFFFFFFFF : Word).toNat < 2 ^ 32 ∧ ∀ n, inField 6 32 n → Memory.zero.wireBit n = false) :=
  ⟨by decide, by decide, by decide, fun n _ => Memory.wireBit_zero n⟩

theorem witness_UnpackInvertsPack :
    (admitted 9 8 ∧ (0xAB : Word).toNat < 2 ^ 8 ∧ ∀ n, inField 9 8 n → Memory.zero.wireBit n = false) ∧
    (admitted 0 8 ∧ ∀ n, n < 88 → (bufOf [0x02, 0x40]).wireBit n =
      ((bufOf [0x22, 0x41]).wireBit n && !decide (inField 0 8 n))) :=
  ⟨⟨by decide, by decide, fun n _ => Memory.wireBit_zero n⟩, by decide, by decide⟩

theorem witness_UnpackSeesItsFieldOnly :
    ∀ k, inField 0 8 k → (bufOf [0x22, 0x41]).wireBit k = (bufOf [0x2F, 0xF1, 0x99]).wireBit k := by
  rintro k ⟨h4, h12⟩
  have : ∀ k, k < 12 → 4 ≤ k → (bufOf [0x22, 0x41]).wireBit k = (bufOf [0x2F, 0xF1, 0x99]).wireBit k := by decide
  exact this k h12 h4

theorem witness_BigEndianBytesRoundTrip :
    (0xFFFFFFFF : Word).toNat < 2 ^ (8 * 4) ∧ (0 : Word).toNat < 2 ^ (8 * 0) ∧ ([1, 2, 3, 4] : List Byte).length ≤ 4 := by
  decide

theorem witness_FieldsDoNotInterfere :
    ∃ t₁ t₂, e4.flt = 0 ∧ { e4 with dcnAdr := 0 }.flt = 0 ∧ exec .encode e4 = .next t₁ ∧
      exec .encode { e4 with dcnAdr := 0 } = .next t₂ ∧ e4.ctxId = { e4 with dcnAdr := 0 }.ctxId ∧
      e4.tcpId = { e4 with dcnAdr := 0 }.tcpId ∧ e4.dcnAdr = { e4 with ctxId := 0 }.dcnAdr :=
  ⟨_, _, rfl, rfl, rfl, rfl, rfl, rfl, rfl⟩

/-- E2's buffer with tag 0xD and padding 0xF (X6). -/
def x6 : State := withBuf [0x0D, 0x10, 0, 0, 0, 0x10, 0, 0, 0, 0x10, 0xF0]

/-- E2's buffer. -/
def e2 : State := withBuf [0x02, 0x10, 0, 0, 0, 0x10, 0, 0, 0, 0x10, 0x00]

theorem witness_DecodeIgnoresTagAndPadding :
    x6.flt = 0 ∧ e2.flt = 0 ∧ ∀ n, 4 ≤ n → n < 84 → x6.buf.wireBit n = e2.buf.wireBit n := by
  refine ⟨rfl, rfl, fun n h4 h84 => ?_⟩
  have : ∀ n, n < 84 → 4 ≤ n → x6.buf.wireBit n = e2.buf.wireBit n := by decide
  exact this n h84 h4

theorem witness_DecodeIsOneToOneOnFieldBits :
    ∃ t₁ t₂, exec .decode x6 = .next t₁ ∧ exec .decode e2 = .next t₂ ∧
      t₁.ctxId = t₂.ctxId ∧ t₁.dcnAdr = t₂.dcnAdr ∧ t₁.tcpId = t₂.tcpId :=
  ⟨_, _, rfl, rfl, by decide, by decide, by decide⟩

theorem witness_EncodeAndDecodeRoundTrip :
    e2.flt = 0 ∧ (e2.buf.read 0 &&& 0x0F = 0x02 ∧ e2.buf.read 10 &&& 0xF0 = 0) ∧
    x6.flt = 0 ∧ ¬ (x6.buf.read 0 &&& 0x0F = 0x02 ∧ x6.buf.read 10 &&& 0xF0 = 0) := by decide

theorem witness_RecordCommandsEqualFieldCommands :
    e4.flt = 0 ∧ [(Instr.pack 6 32, e4.tcpId), (.tag, 0), (.pack 2 32, e4.dcnAdr), (.pack 0 16, e4.ctxId.setWidth 32)].Perm
      [(.tag, 0), (.pack 0 16, e4.ctxId.setWidth 32), (.pack 2 32, e4.dcnAdr), (.pack 6 32, e4.tcpId)] := by decide

theorem witness_WrbOverwritesOneByte : e4.flt = 0 ∧ (10#4).toNat ≤ 10 ∧ ¬ (11#4).toNat ≤ 10 := by decide

theorem witness_RdbAnswersOneByte : e4.flt = 0 ∧ (10#4).toNat ≤ 10 ∧ ¬ (11#4).toNat ≤ 10 := by decide

theorem witness_BytesReadBackAfterPack :
    e4.flt = 0 ∧ admitted (6#4).toNat (32#6).toNat ∧ 0 ≤ (32#6).toNat / 8 ∧ 4 ≤ (32#6).toNat / 8 := by decide

end Sys2Proof.Tests
end

section
/-! The scope of the block (00_scope.md): the byte order of R11 is a bijection on up to four bytes, and every move of the
host, or none, gives the block a next state (R16, R17, R181, R190). -/

namespace Sys2Proof.Machine

/-! ### Big-endian byte sequences -/

/-- The bytes of a value that fits in them spell the value. -/
theorem fromBe_beBytes {v : Word} {n : Nat} (hn : n ≤ 4) (hv : v.toNat < 2 ^ (8 * n)) :
    fromBe (beBytes v n) = v := by
  apply BitVec.eq_of_getLsbD_eq
  intro i _
  rw [getLsbD_fromBe _ (by simpa using hn), length_beBytes]
  by_cases hin : i < 8 * n
  · rw [getLsbD_beBytes v (by omega) (by omega), show 8 * (n - 1 - (n - 1 - i / 8)) + i % 8 = i by omega]
    simp [hin]
  · have htop : v.getLsbD i = false :=
      Nat.testBit_lt_two_pow (hv.trans_le (Nat.pow_le_pow_right (by decide) (by omega)))
    simp [hin, htop]

/-- The value that up to four bytes spell has those bytes. -/
theorem beBytes_fromBe {dc : List Byte} (h : dc.length ≤ 4) : beBytes (fromBe dc) dc.length = dc := by
  apply List.ext_getElem (length_beBytes _ _)
  intro k hk hdc
  have hbyte : (beBytes (fromBe dc) dc.length).getD k 0 = dc.getD k 0 := by
    apply BitVec.eq_of_getLsbD_eq
    intro j hj
    rw [getLsbD_beBytes _ hdc hj, getLsbD_fromBe dc h,
      show (8 * (dc.length - 1 - k) + j) / 8 = dc.length - 1 - k by omega,
      show (8 * (dc.length - 1 - k) + j) % 8 = j by omega,
      show dc.length - 1 - (dc.length - 1 - k) = k by omega]
    simp [show 8 * (dc.length - 1 - k) + j < 8 * dc.length by omega]
  simpa only [List.getD_eq_getElem _ _ hk, List.getD_eq_getElem _ _ hdc] using hbyte

/-- Settles O33: both directions bit by bit, through the bits of `from_be` and of `be_bytes`. -/
theorem bigEndianBytesRoundTrip : Obligations.BigEndianBytesRoundTrip :=
  ⟨fun _ _ => fromBe_beBytes, fun _ => beBytes_fromBe⟩

/-! ### What a step is, by the host's next move -/

theorem step_of_no_move {s : State} (h : s.host = []) : step s = .next s := by
  simp [step, nextMove, h]

theorem step_of_reset {s : State} {rest : List HostMove} (h : s.host = .reset :: rest) :
    step s = .next (takeReset { s with host := rest }) := by
  simp [step, nextMove, h]

theorem step_of_decoded {s : State} {cmd : CmdWord} {d : Word} {rest : List HostMove} {i : Instr}
    (h : s.host = .command cmd d :: rest) (hi : decodeWord cmd = .ok i) :
    step s = exec i { s with host := rest, din := d } := by
  simp [step, nextMove, h, hi]

theorem step_of_undecoded {s : State} {cmd : CmdWord} {d : Word} {rest : List HostMove} {e : Illegal}
    (h : s.host = .command cmd d :: rest) (he : decodeWord cmd = .error e) :
    step s = illegalCommand { s with host := rest, din := d } := by
  simp [step, nextMove, h, he]

/-- A step always answers a next state, whatever the host's next move. -/
theorem step_total (s : State) : ∃ t, step s = .next t := by
  cases hm : s.host with
  | nil => exact ⟨_, step_of_no_move hm⟩
  | cons move rest =>
    cases move with
    | reset => exact ⟨_, step_of_reset hm⟩
    | command cmd d =>
      cases hd : decodeWord cmd with
      | ok i => rw [step_of_decoded hm hd]; exact exec_total _ _
      | error e => rw [step_of_undecoded hm hd]; exact runCommand_total _ _

/-- Settles O5: the step of a decoded command. -/
theorem stepRunsTheDecodedCommand : Obligations.StepRunsTheDecodedCommand :=
  fun _ _ _ _ _ => step_of_decoded

/-- Settles O6: the step with no move left. -/
theorem stepWithoutMovesIsIdle : Obligations.StepWithoutMovesIsIdle :=
  fun _ => step_of_no_move

/-- Settles O7: totality of a step, by the host's next move, and of every command, by the shared form `runCommand`. -/
theorem everyStepAnswersANextState : Obligations.EveryStepAnswersANextState :=
  ⟨step_total, exec_total⟩

end Sys2Proof.Machine
end

section
/-! The state between commands (10_state.md): power-on, the invariant of the block, when `flt` changes, and which command
writes which field (R22, R25, R27, R30, R41). -/

namespace Sys2Proof.Machine

/-! ### The command a word stands for -/

/-- The tests and effect of a command word, legal or not: those of the command it decodes to, or ILLCMD (R65, R155). -/
def bodyOfWord (cmd : CmdWord) (s : State) : Except Cause (State × Word) :=
  match decodeWord cmd with
  | .ok i => bodyOf i s
  | .error _ => .error .illcmd

theorem step_of_command {s : State} {cmd : CmdWord} {d : Word} {rest : List HostMove}
    (h : s.host = .command cmd d :: rest) :
    step s = runCommand (bodyOfWord cmd) { s with host := rest, din := d } := by
  cases hd : decodeWord cmd with
  | ok i =>
    rw [step_of_decoded h hd, exec_eq]
    simp [runCommand, bodyOfWord, hd]
  | error e =>
    rw [step_of_undecoded h hd]
    simp [illegalCommand, runCommand, bodyOfWord, hd]

/-- A word whose command completes decodes to that command. -/
theorem decodeWord_of_bodyOfWord_ok {cmd : CmdWord} {s s' : State} {v : Word} (h : bodyOfWord cmd s = .ok (s', v)) :
    ∃ i, decodeWord cmd = .ok i ∧ bodyOf i s = .ok (s', v) := by
  unfold bodyOfWord at h
  split at h
  · next i hd => exact ⟨i, hd, h⟩
  · cases h

/-- Everything a step can do, with one case for every command word, legal or not (R16, R180, R181). -/
theorem step_next_by_move {s t : State} (h : step s = .next t) :
    (s.host = [] ∧ t = s) ∨
    (∃ rest, s.host = .reset :: rest ∧ t = takeReset { s with host := rest }) ∨
    (∃ cmd d rest, s.host = .command cmd d :: rest ∧
      runCommand (bodyOfWord cmd) { s with host := rest, din := d } = .next t) := by
  obtain hidle | hreset | ⟨cmd, d, rest, _, hm, -, -⟩ | ⟨cmd, d, rest, _, hm, -, -⟩ := step_next h
  · exact .inl hidle
  · exact .inr (.inl hreset)
  · exact .inr (.inr ⟨cmd, d, rest, hm, step_of_command hm ▸ h⟩)
  · exact .inr (.inr ⟨cmd, d, rest, hm, step_of_command hm ▸ h⟩)

/-! ### Power-on -/

/-- Settles O15: the fields of the power-on state. -/
theorem powerOnStateIsIdleAndZero : Obligations.PowerOnStateIsIdleAndZero :=
  ⟨Memory.read_nil, rfl, rfl, rfl, rfl⟩

/-- Settles O17: the empty list of cells is canonical, and no answer stands. -/
theorem invHoldsAtReset : Obligations.InvHoldsAtReset :=
  ⟨Memory.wf_zero, by decide, rfl, rfl, rfl⟩

/-! ### The invariant -/

theorem code_le_four (c : Cause) : c.code.toNat ≤ 4 := by cases c <;> decide

theorem answerAgrees_answerOk (v : Word) {s : State} (h : s.flt = 0) : (answerOk v s).answerAgrees = true := by
  simp [State.answerAgrees, h, statusOk]

theorem answerAgrees_answerHalted {s : State} (h : s.flt ≠ 0) : (answerHalted s).answerAgrees = true := by
  simpa [State.answerAgrees, statusHalted] using h

theorem answerAgrees_raise (c : Cause) (s : State) : (raise c s).answerAgrees = true := by
  cases c <;> rfl

theorem inv_takeReset (s : State) : (takeReset s).Inv :=
  ⟨Memory.wf_zero, by simp, rfl, rfl, by simp [State.answerAgrees]⟩

/-- A completing command leaves the cursor of a block whose cursor is home there: only ENCODE and DECODE move it, and
both bring it back (R30). -/
theorem bodyOf_cursor_home {i : Instr} {s s' : State} {v : Word} (hfi : s.fi = 0) (hnoff : s.noff = 0)
    (h : bodyOf i s = .ok (s', v)) : s'.fi = 0 ∧ s'.noff = 0 := by
  obtain ⟨hfi', hnoff'⟩ | ⟨hfi', hnoff', -⟩ := bodyOf_cursor h
  · exact ⟨hfi'.trans hfi, hnoff'.trans hnoff⟩
  · exact ⟨hfi', hnoff'⟩

/-- A command word keeps the invariant, in each of the three ways the command can end. -/
theorem inv_runCommand_bodyOfWord {cmd : CmdWord} {s t : State} (hs : s.Inv)
    (h : runCommand (bodyOfWord cmd) s = .next t) : t.Inv := by
  obtain ⟨hwf, hflt, hfi, hnoff, -⟩ := hs
  obtain ⟨hne, rfl⟩ | ⟨h0, s', v, hrun, rfl⟩ | ⟨-, c, -, rfl⟩ := runCommand_next h
  · exact ⟨hwf, hflt, hfi, hnoff, answerAgrees_answerHalted hne⟩
  · obtain ⟨i, -, hbody⟩ := decodeWord_of_bodyOfWord_ok hrun
    have h0' : s'.flt = 0 := (bodyOf_keeps hbody).1.trans h0
    have hwf' : s'.buf.wf := wf_bodyOf hwf hbody
    obtain ⟨hfi', hnoff'⟩ := bodyOf_cursor_home hfi hnoff hbody
    exact ⟨hwf', by simp [h0'], hfi', hnoff', answerAgrees_answerOk v h0'⟩
  · exact ⟨hwf, code_le_four c, hfi, hnoff, answerAgrees_raise c s⟩

/-- Settles O16, by the host's next move; taking a move off the list and putting its operand on `din` touch nothing the
invariant speaks of. -/
theorem everyStepKeepsInv : Obligations.EveryStepKeepsInv := by
  intro s t hs h
  obtain ⟨-, rfl⟩ | ⟨rest, -, rfl⟩ | ⟨cmd, d, rest, -, hrun⟩ := step_next_by_move h
  · exact hs
  · exact inv_takeReset _
  · exact inv_runCommand_bodyOfWord (s := { s with host := rest, din := d }) hs hrun

/-! ### The fault register -/

/-- A command word that changes `flt` enters a fault: `flt` was 0, and the state is that of `raise` (R156). -/
theorem raise_of_flt_changed {cmd : CmdWord} {s t : State} (h : runCommand (bodyOfWord cmd) s = .next t)
    (hne : t.flt ≠ s.flt) : s.flt = 0 ∧ ∃ c, t = raise c s := by
  obtain ⟨-, rfl⟩ | ⟨-, s', v, hrun, rfl⟩ | ⟨h0, c, -, rfl⟩ := runCommand_next h
  · exact absurd rfl hne
  · obtain ⟨i, -, hbody⟩ := decodeWord_of_bodyOfWord_ok hrun
    exact absurd (bodyOf_keeps hbody).1 hne
  · exact ⟨h0, c, rfl⟩

/-- Settles O11, by the host's next move: a reset leaves 0, and a command changes `flt` by fault entry alone. -/
theorem fltChangesByFaultOrResetOnly : Obligations.FltChangesByFaultOrResetOnly := by
  intro s t h hne
  obtain ⟨-, rfl⟩ | ⟨rest, hm, rfl⟩ | ⟨cmd, d, rest, hm, hrun⟩ := step_next_by_move h
  · exact absurd rfl hne
  · exact .inl ⟨by simp [hm], rfl⟩
  · obtain ⟨h0, c, rfl⟩ := raise_of_flt_changed hrun hne
    exact .inr ⟨h0, ⟨cmd, d, by simp [hm]⟩, code_values c, rfl⟩

/-! ### Who writes what -/

/-- The state a completing command leaves, its answer aside. -/
def effectOf (i : Instr) (s : State) : State :=
  match i with
  | .clr => { s with buf := Memory.zero }
  | .tag => { s with buf := writeTag s.buf }
  | .pack boff w => { s with buf := packField s.buf boff.toNat (fieldValue w.toNat s.din) w.toNat }
  | .encode => encodeRun s
  | .decode => decodeRun s
  | .wrr r => writeReg r s.din s
  | .wrb addr => { s with buf := s.buf.write addr.toNat (byteValue s.din) }
  | .unpack _ _ => s
  | .rdr _ => s
  | .rdb _ => s

theorem eq_effectOf_of_bodyOf_ok {i : Instr} {s s' : State} {v : Word} (h : bodyOf i s = .ok (s', v)) :
    s' = effectOf i s := by
  cases i with
  | clr | tag | encode | decode | rdr => exact (congrArg Prod.fst (Except.ok.inj h)).symm
  | pack | unpack | wrb | rdb | wrr =>
    simp only [bodyOf] at h
    split at h <;> cases h
    rfl

@[simp] theorem encodeRun_ctxId (s : State) : (encodeRun s).ctxId = s.ctxId := by rw [encodeRun_eq]
@[simp] theorem encodeRun_dcnAdr (s : State) : (encodeRun s).dcnAdr = s.dcnAdr := by rw [encodeRun_eq]
@[simp] theorem encodeRun_tcpId (s : State) : (encodeRun s).tcpId = s.tcpId := by rw [encodeRun_eq]
@[simp] theorem decodeRun_buf (s : State) : (decodeRun s).buf = s.buf := by rw [decodeRun_eq]

theorem effectOf_record (i : Instr) (s : State) :
    ((effectOf i s).ctxId = s.ctxId ∨ i = .wrr .ctxId ∨ i = .decode) ∧
    ((effectOf i s).dcnAdr = s.dcnAdr ∨ i = .wrr .dcnAdr ∨ i = .decode) ∧
    ((effectOf i s).tcpId = s.tcpId ∨ i = .wrr .tcpId ∨ i = .decode) := by
  cases i with
  | wrr r => cases r <;> simp [effectOf]
  | _ => simp [effectOf]

theorem effectOf_buf (i : Instr) (s : State) :
    (effectOf i s).buf = s.buf ∨
      i = .clr ∨ i = .tag ∨ i = .encode ∨ (∃ boff w, i = .pack boff w) ∨ ∃ a, i = .wrb a := by
  cases i <;> simp [effectOf]

/-- Settles O18: a refused or faulting command writes only `flt` and the answer; of the effects of the completing ones,
`effectOf_record` and `effectOf_buf` say what is written. -/
theorem onlyTheListedCommandsWrite : Obligations.OnlyTheListedCommandsWrite := by
  intro i s t h
  obtain ⟨-, rfl⟩ | ⟨-, s', v, hbody, rfl⟩ | ⟨-, c, -, rfl⟩ := runCommand_next (exec_eq i s ▸ h)
  · simp
  · obtain ⟨-, hframe⟩ := bodyOf_keeps hbody
    have hcursor := bodyOf_cursor hbody
    obtain rfl := eq_effectOf_of_bodyOf_ok hbody
    obtain ⟨hctxId, hdcnAdr, htcpId⟩ := effectOf_record i s
    exact ⟨hctxId.resolve_left, hdcnAdr.resolve_left, htcpId.resolve_left, (effectOf_buf i s).resolve_left,
      hcursor, hframe⟩
  · simp

end Sys2Proof.Machine
end

section
/-! The wire buffer (20_memory.md): where the bits of a packed field lie (R43), the byte map of an encoded record (R45), what
the host reads back of a packed field (R47), and reads without side effect (R51). -/

namespace Sys2Proof.Machine

/-! ### A command that completes -/

theorem exec_ok {i : Instr} {s s' : State} {v : Word} (h : s.flt = 0) (hbody : bodyOf i s = .ok (s', v)) :
    exec i s = .next (answerOk v s') :=
  (exec_eq i s).trans (runCommand_ok h hbody)

/-- A command that leaves `flt` at 0 was neither refused nor faulted: it completed (R156, R157). -/
theorem bodyOf_ok_of_exec {i : Instr} {s t : State} (h : exec i s = .next t) (ht : t.flt = 0) :
    s.flt = 0 ∧ ∃ s' v, bodyOf i s = .ok (s', v) ∧ t = answerOk v s' := by
  obtain ⟨hne, rfl⟩ | ⟨h0, hok⟩ | ⟨-, c, -, rfl⟩ := runCommand_next (exec_eq i s ▸ h)
  · exact absurd ht hne
  · exact ⟨h0, hok⟩
  · exact absurd ht (code_ne_zero c)

theorem exec_clr {s : State} (h : s.flt = 0) : exec .clr s = .next (answerOk 0 { s with buf := Memory.zero }) :=
  exec_ok h rfl

theorem exec_pack {s : State} {boff : BitVec 4} {w : BitVec 6} (h : s.flt = 0)
    (hf : checkField boff.toNat w.toNat = .ok ()) :
    exec (.pack boff w) s =
      .next (answerOk 0 { s with buf := packField s.buf boff.toNat (fieldValue w.toNat s.din) w.toNat }) :=
  exec_ok h (by simp [bodyOf, hf])

theorem exec_encode {s : State} (h : s.flt = 0) :
    exec .encode s =
      .next (answerOk 0 { s with buf := encodeRecord s.ctxId s.dcnAdr s.tcpId, fi := 0, noff := 0 }) :=
  exec_ok h (by rw [← encodeRun_eq]; rfl)

theorem exec_rdb {s : State} {addr : BitVec 4} (h : s.flt = 0) (ha : addr.toNat < 11) :
    exec (.rdb addr) s = .next (answerOk ((s.buf.read addr.toNat).setWidth 32) s) :=
  exec_ok h (by simp [bodyOf, checkAddr, Config.bufBytes, ha])

/-! ### Reads have no side effect -/

/-- DECODE reads the buffer alone, so a second run finds every register as it would write it. -/
theorem decodeRun_answerOk_decodeRun (v : Word) (s : State) :
    decodeRun (answerOk v (decodeRun s)) = answerOk v (decodeRun s) := by
  simp only [decodeRun_eq, answerOk]

/-- UNPACK, RDR, RDB or DECODE, run again on the state it answered, answers the same: the first three read nothing of the
answer, and DECODE leaves what it reads. -/
theorem bodyOf_read_again {i : Instr} {s s' : State} {v : Word}
    (hi : (∃ boff w, i = .unpack boff w) ∨ (∃ r, i = .rdr r) ∨ (∃ a, i = .rdb a) ∨ i = .decode)
    (h : bodyOf i s = .ok (s', v)) : bodyOf i (answerOk v s') = .ok (answerOk v s', v) := by
  obtain ⟨_, _, rfl⟩ | ⟨r, rfl⟩ | ⟨_, rfl⟩ | rfl := hi
  · simp only [bodyOf] at h ⊢
    split at h <;> cases h
    rfl
  · cases h
    cases r <;> rfl
  · simp only [bodyOf] at h ⊢
    split at h <;> cases h
    rfl
  · simp only [bodyOf, Except.ok.injEq, Prod.mk.injEq] at h ⊢
    obtain ⟨rfl, rfl⟩ := h
    exact ⟨decodeRun_answerOk_decodeRun 0 s, rfl⟩

/-- Settles O19, by the four commands: each completed, so it is `effectOf` and its repetition is `bodyOf_read_again`. -/
theorem readsHaveNoSideEffect : Obligations.ReadsHaveNoSideEffect := by
  intro i s t hi h ht
  obtain ⟨-, s', v, hbody, rfl⟩ := bodyOf_ok_of_exec h ht
  have hagain : exec i (answerOk v s') = .next (answerOk v s') :=
    exec_ok (s' := answerOk v s') ht (bodyOf_read_again hi hbody)
  obtain rfl := eq_effectOf_of_bodyOf_ok hbody
  obtain ⟨_, _, rfl⟩ | ⟨_, rfl⟩ | ⟨_, rfl⟩ | rfl := hi
  · exact ⟨rfl, fun _ => rfl, hagain⟩
  · exact ⟨rfl, fun _ => rfl, hagain⟩
  · exact ⟨rfl, fun _ => rfl, hagain⟩
  · exact ⟨decodeRun_buf s, fun hne => absurd rfl hne, hagain⟩

/-! ### The bits of a packed field -/

/-- Settles O25: on a zero region the wire bit after `pack` is the bit that `pack` ORs in. -/
theorem packedFieldBitOrder : Obligations.PackedFieldBitOrder := by
  intro m boff w v hf hzero
  refine ⟨packField m boff v w, pack_ok ((checkField_ok _ _).2 hf) m v, fun j hj => ?_⟩
  have hin : inField boff w (8 * boff + 4 + j) := by constructor <;> omega
  rw [show 4 * (2 * boff + 1) + j = 8 * boff + 4 + j by omega, wireBit_packField m boff v hf.1, hzero _ hin,
    Nat.add_sub_cancel_left]
  simp [hin.2]

/-! ### The byte map of an encoded record -/

/-- Wire nibble `n` of the buffer (R8): the low nibble of byte `n div 2` for even `n`, the high one for odd `n`. -/
def Memory.wireNibble (m : Memory) (n : Nat) : BitVec 4 := (m.read (n / 2)).extractLsb' (4 * (n % 2)) 4

/-- The byte of a high and a low nibble. -/
def joinNibbles (h l : BitVec 4) : Byte := (h.setWidth 8 <<< 4) ||| l.setWidth 8

theorem Memory.getLsbD_wireNibble (m : Memory) (n : Nat) {j : Nat} (hj : j < 4) :
    (m.wireNibble n).getLsbD j = m.wireBit (4 * n + j) := by
  simp [Memory.wireNibble, Memory.wireBit, hj, show (4 * n + j) / 8 = n / 2 by omega,
    show (4 * n + j) % 8 = 4 * (n % 2) + j by omega]

theorem Memory.wireNibble_eq_of_wireBits {m : Memory} {n : Nat} {x : BitVec 4}
    (h : ∀ j, j < 4 → m.wireBit (4 * n + j) = x.getLsbD j) : m.wireNibble n = x :=
  BitVec.eq_of_getLsbD_eq fun j hj => (m.getLsbD_wireNibble n hj).trans (h j hj)

/-- A byte is its two wire nibbles, the even one low. -/
theorem Memory.read_eq_joinNibbles {m : Memory} {a : Nat} {h l : BitVec 4} (hhigh : m.wireNibble (2 * a + 1) = h)
    (hlow : m.wireNibble (2 * a) = l) : m.read a = joinNibbles h l := by
  subst hhigh hlow
  apply BitVec.eq_of_getLsbD_eq
  intro j hj
  rw [joinNibbles, BitVec.getLsbD_or, BitVec.getLsbD_shiftLeft, BitVec.getLsbD_setWidth, BitVec.getLsbD_setWidth,
    ← m.wireBit_byte a hj]
  by_cases h4 : j < 4
  · rw [m.getLsbD_wireNibble _ h4]
    simp [h4, hj, show 4 * (2 * a) = 8 * a by omega]
  · rw [m.getLsbD_wireNibble _ (show j - 4 < 4 by omega), BitVec.getLsbD_of_ge _ j (by omega)]
    simp [h4, hj, show j - 4 < 8 by omega, show 4 * (2 * a + 1) + (j - 4) = 8 * a + j by omega]

/-- Wire nibble `first + k` of a field of `nBytes` bytes that starts at wire nibble `first` and whose wire bits lie as R43
says. -/
theorem Memory.wireNibble_of_field {m : Memory} {first nBytes k wd : Nat} {x : BitVec wd}
    (h : ∀ j, j < 8 * nBytes → m.wireBit (4 * first + j) = x.getLsbD (fieldBitAt nBytes j)) (hk : k < 2 * nBytes) :
    m.wireNibble (first + k) = x.extractLsb' (fieldBitAt nBytes (4 * k)) 4 := by
  refine Memory.wireNibble_eq_of_wireBits fun j hj => ?_
  have hbit : fieldBitAt nBytes (4 * k + j) = fieldBitAt nBytes (4 * k) + j := by unfold fieldBitAt; omega
  rw [show 4 * (first + k) + j = 4 * first + (4 * k + j) by omega, h _ (by omega), hbit]
  simp [hj]

section
variable (c : BitVec 16) (d t : BitVec 32)

theorem wireBit_encodeRecord_ctxId {j : Nat} (hj : j < 16) :
    (encodeRecord c d t).wireBit (4 + j) = c.getLsbD (fieldBitAt 2 j) := by
  rw [wireBit_encodeRecord, if_neg (by omega), if_pos (by omega), Nat.add_sub_cancel_left]

theorem wireBit_encodeRecord_dcnAdr {j : Nat} (hj : j < 32) :
    (encodeRecord c d t).wireBit (20 + j) = d.getLsbD (fieldBitAt 4 j) := by
  rw [wireBit_encodeRecord, if_neg (by omega), if_neg (by omega), if_pos (by omega), Nat.add_sub_cancel_left]

theorem wireBit_encodeRecord_tcpId {j : Nat} (hj : j < 32) :
    (encodeRecord c d t).wireBit (52 + j) = t.getLsbD (fieldBitAt 4 j) := by
  rw [wireBit_encodeRecord, if_neg (by omega), if_neg (by omega), if_neg (by omega), if_pos (by omega),
    Nat.add_sub_cancel_left]

theorem wireNibble_encodeRecord_tag : (encodeRecord c d t).wireNibble 0 = 2 := by
  refine Memory.wireNibble_eq_of_wireBits fun j hj => ?_
  rw [wireBit_encodeRecord, if_pos (by omega)]
  interval_cases j <;> rfl

theorem wireNibble_encodeRecord_padding : (encodeRecord c d t).wireNibble 21 = 0 := by
  refine Memory.wireNibble_eq_of_wireBits fun j hj => ?_
  rw [wireBit_encodeRecord, if_neg (by omega), if_neg (by omega), if_neg (by omega), if_neg (by omega)]
  simp

theorem wireNibble_encodeRecord_ctxId {k : Nat} (hk : k < 4) :
    (encodeRecord c d t).wireNibble (1 + k) = c.extractLsb' (fieldBitAt 2 (4 * k)) 4 :=
  Memory.wireNibble_of_field (fun _ => wireBit_encodeRecord_ctxId c d t) hk

theorem wireNibble_encodeRecord_dcnAdr {k : Nat} (hk : k < 8) :
    (encodeRecord c d t).wireNibble (5 + k) = d.extractLsb' (fieldBitAt 4 (4 * k)) 4 :=
  Memory.wireNibble_of_field (fun _ => wireBit_encodeRecord_dcnAdr c d t) hk

theorem wireNibble_encodeRecord_tcpId {k : Nat} (hk : k < 8) :
    (encodeRecord c d t).wireNibble (13 + k) = t.extractLsb' (fieldBitAt 4 (4 * k)) 4 :=
  Memory.wireNibble_of_field (fun _ => wireBit_encodeRecord_tcpId c d t) hk

end

/-- Settles O35: the 22 wire nibbles of the record, the tag at 0, the fields from 1, 5 and 13 on, the padding at 21, two
to a byte. -/
theorem encodeWritesTheByteMap : Obligations.EncodeWritesTheByteMap := by
  intro s h0 hi c d t
  have htag := wireNibble_encodeRecord_tag c d t
  have hc := fun k (hk : k < 4) => wireNibble_encodeRecord_ctxId c d t hk
  have hd := fun k (hk : k < 8) => wireNibble_encodeRecord_dcnAdr c d t hk
  have ht := fun k (hk : k < 8) => wireNibble_encodeRecord_tcpId c d t hk
  have hpad := wireNibble_encodeRecord_padding c d t
  exact ⟨encodeRecord c d t, exec_encode h0,
    Memory.read_eq_joinNibbles (hc 0 (by decide)) htag,
    Memory.read_eq_joinNibbles (hc 2 (by decide)) (hc 1 (by decide)),
    Memory.read_eq_joinNibbles (hd 0 (by decide)) (hc 3 (by decide)),
    Memory.read_eq_joinNibbles (hd 2 (by decide)) (hd 1 (by decide)),
    Memory.read_eq_joinNibbles (hd 4 (by decide)) (hd 3 (by decide)),
    Memory.read_eq_joinNibbles (hd 6 (by decide)) (hd 5 (by decide)),
    Memory.read_eq_joinNibbles (ht 0 (by decide)) (hd 7 (by decide)),
    Memory.read_eq_joinNibbles (ht 2 (by decide)) (ht 1 (by decide)),
    Memory.read_eq_joinNibbles (ht 4 (by decide)) (ht 3 (by decide)),
    Memory.read_eq_joinNibbles (ht 6 (by decide)) (ht 5 (by decide)),
    Memory.read_eq_joinNibbles hpad (ht 7 (by decide))⟩

/-! ### The bytes of a packed field, read back -/

/-- Cutting PACK's operand to the field's width leaves its source bytes. -/
theorem beBytes_fieldValue (w : Nat) (d : Word) : beBytes (fieldValue w d) (w / 8) = beBytes d (w / 8) := by
  refine List.map_congr_left fun k hk => BitVec.eq_of_getLsbD_eq fun j hj => ?_
  have hk : k < w / 8 := List.mem_range.1 hk
  rw [BitVec.getLsbD_setWidth, BitVec.getLsbD_setWidth, BitVec.getLsbD_ushiftRight, BitVec.getLsbD_ushiftRight,
    getLsbD_fieldValue]
  simp [show 8 * (w / 8 - 1 - k) + j < w by omega]

/-- A touched byte of a field that PACK puts into a zero buffer (R86). -/
theorem read_packField_zero {boff w k : Nat} (d : Word) (hk : k ≤ w / 8) :
    (packField Memory.zero boff (fieldValue w d) w).read (boff + k) = packByte (beBytes d (w / 8)) k := by
  rw [read_packField, if_pos (by omega), beBytes_fieldValue, Nat.add_sub_cancel_left]
  simp

/-- What `pack` ORs into the `k`-th touched byte, with a byte past the last source byte read as 0 (R47). -/
theorem packByte_eq_getD (dc : List Byte) (k : Nat) :
    packByte dc k = (dc.getD k 0 <<< 4) ||| (if k = 0 then (0 : Byte) else dc.getD (k - 1) 0 >>> 4) := by
  have hhigh : (if k < dc.length then dc.getD k 0 <<< 4 else (0 : Byte)) = dc.getD k 0 <<< 4 := by
    split
    · rfl
    · rw [List.getD_eq_default _ _ (by omega)]; rfl
  rw [packByte, hhigh]
  cases k <;> rfl

/-- Settles O50: the three commands complete one after the other, and the byte read back is the one `pack` ORs into
zero. -/
theorem bytesReadBackAfterPack : Obligations.BytesReadBackAfterPack := by
  intro s boff w v k h0 hf hk N dc
  have haddr : (BitVec.ofNat 4 (boff.toNat + k)).toNat = boff.toNat + k := by
    rw [BitVec.toNat_ofNat, Nat.mod_eq_of_lt (by omega)]
  have ha : boff.toNat + k < 11 := by omega
  have hcheck : checkField boff.toNat w.toNat = .ok () := (checkField_ok _ _).2 hf
  simp only [runCommands, exec_clr, exec_pack, exec_rdb, answerOk_flt, h0, hcheck, haddr, ha]
  refine ⟨_, rfl, ?_⟩
  simp only [answerOk_answer, answerOk_buf]
  rw [read_packField_zero v hk, packByte_eq_getD, getD_beBytes, getD_beBytes]
  rfl

end Sys2Proof.Machine
end

section
/-! The command word and its answer (30_encoding.md): a word decodes to a command exactly when its fields are the command's
(R61, R62, R65 to R67), the answer of every word (R70), and the data bits a command does not read (R64). -/

namespace Sys2Proof

/-! ### The formats -/

theorem regOfIndex_eq_some_iff {a : BitVec 4} {r : Reg} : regOfIndex a = some r ↔ a = indexOfReg r := by
  cases r <;> revert a <;> decide

section
variable {cmd : CmdWord} {i : Instr}

theorem decodeFormatZ_eq_ok_iff {j : Instr} :
    decodeFormatZ cmd j = .ok i ↔ aField cmd = 0 ∧ zField cmd = 0 ∧ wField cmd = 0 ∧ j = i := by
  unfold decodeFormatZ
  split
  · simp_all
  · split
    · next hne => exact iff_of_false nofun fun ⟨ha, _, hw, _⟩ => hne.elim (· ha) (· hw)
    · simp_all

theorem decodeFormatF_eq_ok_iff {mk : BitVec 4 → BitVec 6 → Instr} :
    decodeFormatF cmd mk = .ok i ↔ zField cmd = 0 ∧ mk (aField cmd) (wField cmd) = i := by
  unfold decodeFormatF
  split <;> simp_all

theorem decodeFormatA_eq_ok_iff {mk : BitVec 4 → Instr} :
    decodeFormatA cmd mk = .ok i ↔ zField cmd = 0 ∧ wField cmd = 0 ∧ mk (aField cmd) = i := by
  unfold decodeFormatA
  split
  · simp_all
  · split <;> simp_all

theorem decodeFormatR_eq_ok_iff {mk : Reg → Instr} :
    decodeFormatR cmd mk = .ok i ↔
      zField cmd = 0 ∧ wField cmd = 0 ∧ ∃ r, aField cmd = indexOfReg r ∧ mk r = i := by
  simp only [← regOfIndex_eq_some_iff]
  unfold decodeFormatR
  split
  · simp_all
  · split
    · simp_all
    · split <;> simp_all

/-! ### The decoder -/

/-- A word that decodes has the fields R61 and R62 give the command. -/
theorem fields_of_decodeWord (h : decodeWord cmd = .ok i) :
    opField cmd = opcodeOf i ∧ aField cmd = aOperand i ∧ zField cmd = 0 ∧ wField cmd = wOperand i := by
  unfold decodeWord at h
  split at h
  case h_1 hop | h_2 hop | h_5 hop | h_6 hop =>
    obtain ⟨ha, hz, hw, rfl⟩ := decodeFormatZ_eq_ok_iff.1 h
    exact ⟨BitVec.eq_of_toNat_eq hop, ha, hz, hw⟩
  case h_3 hop | h_4 hop =>
    obtain ⟨hz, rfl⟩ := decodeFormatF_eq_ok_iff.1 h
    exact ⟨BitVec.eq_of_toNat_eq hop, rfl, hz, rfl⟩
  case h_7 hop | h_8 hop =>
    obtain ⟨hz, hw, r, ha, rfl⟩ := decodeFormatR_eq_ok_iff.1 h
    exact ⟨BitVec.eq_of_toNat_eq hop, ha, hz, hw⟩
  case h_9 hop | h_10 hop =>
    obtain ⟨hz, hw, rfl⟩ := decodeFormatA_eq_ok_iff.1 h
    exact ⟨BitVec.eq_of_toNat_eq hop, rfl, hz, hw⟩
  case h_11 => cases h

/-- A word with the fields R61 and R62 give a command decodes to it. -/
theorem decodeWord_of_fields (hop : opField cmd = opcodeOf i) (ha : aField cmd = aOperand i)
    (hz : zField cmd = 0) (hw : wField cmd = wOperand i) : decodeWord cmd = .ok i := by
  rw [decodeWord, hop]
  cases i with
  | clr | tag | encode | decode => exact decodeFormatZ_eq_ok_iff.2 ⟨ha, hz, hw, rfl⟩
  | pack | unpack => exact decodeFormatF_eq_ok_iff.2 ⟨hz, by rw [ha, hw]; rfl⟩
  | wrr r | rdr r => exact decodeFormatR_eq_ok_iff.2 ⟨hz, hw, r, ha, rfl⟩
  | wrb | rdb => exact decodeFormatA_eq_ok_iff.2 ⟨hz, hw, by rw [ha]; rfl⟩

end

theorem decodeWord_encodeWord (i : Instr) : decodeWord (encodeWord i) = .ok i := by
  obtain ⟨hop, ha, hz, hw⟩ := fields_of_append (opcodeOf i) (aOperand i) 0 (wOperand i)
  exact decodeWord_of_fields hop ha hz hw

theorem encodeWord_of_decodeWord {cmd : CmdWord} {i : Instr} (h : decodeWord cmd = .ok i) : encodeWord i = cmd := by
  obtain ⟨hop, ha, hz, hw⟩ := fields_of_decodeWord h
  calc encodeWord i
    _ = opField cmd ++ aField cmd ++ zField cmd ++ wField cmd := by rw [hop, ha, hz, hw]; rfl
    _ = cmd := word_eq_fields cmd

/-- The decoder and the encoder are one relation between words and commands. -/
theorem decodeWord_eq_ok_iff {cmd : CmdWord} {i : Instr} : decodeWord cmd = .ok i ↔ encodeWord i = cmd :=
  ⟨encodeWord_of_decodeWord, fun h => h ▸ decodeWord_encodeWord i⟩

/-- Settles O1: the encoder's word has the command's fields, and a word with those decodes to the command. -/
theorem decodeOfEncodeIsIdentity : Obligations.DecodeOfEncodeIsIdentity :=
  fun i hi => ⟨decodeWord_encodeWord i, by simp [legalWord, decodeWord_encodeWord, hi]⟩

/-- Settles O2: a word is its four fields, and a decoded word's fields are the command's. -/
theorem decodedWordIsTheCommandsOnlyWord : Obligations.DecodedWordIsTheCommandsOnlyWord :=
  fun _ _ => encodeWord_of_decodeWord

/-- Settles O3: each of the twelve words is the one the encoder lays out for its command. -/
theorem workedEncodingsDecode : Obligations.WorkedEncodingsDecode := by
  simp only [Obligations.WorkedEncodingsDecode, decodeWord_eq_ok_iff]
  decide

namespace Machine

/-! ### The answer of a command word -/

section
variable {s s' : State} {v : Word}

theorem dout_eq_zero_of_bodyOf {i : Instr} (h : bodyOf i s = .ok (s', v)) (hunpack : ∀ boff w, i ≠ .unpack boff w)
    (hrdr : ∀ r, i ≠ .rdr r) (hrdb : ∀ a, i ≠ .rdb a) : v = 0 := by
  cases i with
  | unpack boff w => exact absurd rfl (hunpack boff w)
  | rdr r => exact absurd rfl (hrdr r)
  | rdb a => exact absurd rfl (hrdb a)
  | clr | tag | encode | decode => exact (congrArg Prod.snd (Except.ok.inj h)).symm
  | pack | wrr | wrb =>
    simp only [bodyOf] at h
    split at h <;> cases h
    rfl

theorem unpack_of_bodyOf {boff : BitVec 4} {w : BitVec 6} (h : bodyOf (.unpack boff w) s = .ok (s', v)) :
    unpack s.buf boff.toNat w.toNat = .ok v := by
  simp only [bodyOf] at h
  split at h
  · cases h
  · next hok => cases h; exact unpack_ok hok s.buf

theorem dout_of_bodyOf_rdr {r : Reg} (h : bodyOf (.rdr r) s = .ok (s', v)) : v = readReg r s := by
  cases h; rfl

theorem dout_of_bodyOf_rdb {a : BitVec 4} (h : bodyOf (.rdb a) s = .ok (s', v)) :
    v = (s.buf.read a.toNat).setWidth 32 := by
  simp only [bodyOf] at h
  split at h <;> cases h
  rfl

end

/-- Settles O13, by the three ways a command word can end: refused, completed or faulted. -/
theorem everyCommandAnswersStatusAndData : Obligations.EveryCommandAnswersStatusAndData := by
  intro s cmd d rest hm
  rw [step_of_command hm]
  obtain ⟨t, ht⟩ := runCommand_total (bodyOfWord cmd) { s with host := rest, din := d }
  obtain ⟨hne, rfl⟩ | ⟨h0, s', v, hrun, rfl⟩ | ⟨h0, c, -, rfl⟩ := runCommand_next ht
  · have hne : s.flt ≠ 0 := hne
    exact ⟨_, ⟨statusHalted, 0⟩, ht, rfl, by rw [if_pos hne]; rfl, fun _ => rfl, fun h => absurd h (by decide)⟩
  · obtain ⟨i, hi, hbody⟩ := decodeWord_of_bodyOfWord_ok hrun
    have h0 : s.flt = 0 := h0
    have h0' : s'.flt = 0 := (bodyOf_keeps hbody).1.trans h0
    refine ⟨_, ⟨statusOk, v⟩, ht, rfl, ?_, fun h => absurd rfl h, fun _ => ⟨i, hi, ?_, ?_, ?_, ?_⟩⟩
    · rw [if_neg (not_not_intro h0)]
      exact ⟨h0'.symm, .inl rfl⟩
    · exact dout_eq_zero_of_bodyOf hbody
    · rintro boff w rfl
      exact (unpack_of_bodyOf hbody :)
    · rintro reg rfl
      exact (dout_of_bodyOf_rdr hbody :)
    · rintro a rfl
      exact (dout_of_bodyOf_rdb hbody :)
  · have h0 : s.flt = 0 := h0
    refine ⟨_, ⟨c.code, 0⟩, ht, rfl, ?_, fun _ => rfl, fun h => absurd h (code_ne_zero c)⟩
    rw [if_neg (not_not_intro h0)]
    exact ⟨rfl, .inr (code_values c)⟩

/-! ### Data bits a command does not read -/

/-- The state with another value on the port `din`. -/
def State.setDin (e : Word) (s : State) : State := { s with din := e }

theorem setWidth_eq_of_low_bits {d e : Word} {n : Nat} (h : ∀ j, j < n → d.getLsbD j = e.getLsbD j) :
    d.setWidth n = e.setWidth n :=
  BitVec.eq_of_getLsbD_eq fun j hj => by simp [h j hj]

/-- A data operand alike on the bits read gives the same effect, answer or cause, `din` itself aside (R64). -/
theorem bodyOf_setDin {i : Instr} {s : State} {e : Word} (h : readsAlike i s.din e) :
    bodyOf i (s.setDin e) = (bodyOf i s).map fun p => (p.1.setDin e, p.2) := by
  cases i with
  | clr | tag => rfl
  | encode => simp [bodyOf, encodeRun_eq, State.setDin, Except.map]
  | decode => simp [bodyOf, decodeRun_eq, State.setDin, Except.map]
  | rdr r => cases r <;> rfl
  | pack boff w =>
    have hvalue : fieldValue w.toNat s.din = fieldValue w.toNat e :=
      congrArg (BitVec.setWidth 32) (setWidth_eq_of_low_bits h)
    simp only [bodyOf, hvalue]
    cases checkField boff.toNat w.toNat <;> rfl
  | unpack boff w =>
    simp only [bodyOf]
    cases checkField boff.toNat w.toNat <;> rfl
  | wrb addr =>
    have hvalue : byteValue s.din = byteValue e := setWidth_eq_of_low_bits h
    simp only [bodyOf, hvalue]
    cases checkAddr addr.toNat <;> rfl
  | rdb addr =>
    simp only [bodyOf]
    cases checkAddr addr.toNat <;> rfl
  | wrr r =>
    cases r with
    | tag => rfl
    | ctxId =>
      have hvalue : s.din.setWidth 16 = e.setWidth 16 := setWidth_eq_of_low_bits h
      simp [bodyOf, writeReg, State.setDin, Except.map, hvalue]
    | dcnAdr | tcpId =>
      obtain rfl : s.din = e := h
      rfl

/-- The same for the whole command: a halted block and a fault leave `din` as it stands. -/
theorem exec_setDin {i : Instr} {s t : State} {e : Word} (h : readsAlike i s.din e) (hexec : exec i s = .next t) :
    exec i (s.setDin e) = .next (t.setDin e) := by
  have hbody := bodyOf_setDin h
  rw [exec_eq] at hexec ⊢
  obtain ⟨hne, rfl⟩ | ⟨h0, s', v, hrun, rfl⟩ | ⟨h0, c, hrun, rfl⟩ := runCommand_next hexec
  · exact runCommand_halted _ hne
  · exact runCommand_ok (s' := s'.setDin e) h0 (by rw [hbody, hrun]; rfl)
  · exact runCommand_error (run := bodyOf i) h0 (by rw [hbody, hrun]; rfl)

/-- Settles O20: from the run on `d`, whose next state still has `d` on `din`, to the run on `e`. -/
theorem unreadDataBitsHaveNoEffect : Obligations.UnreadDataBitsHaveNoEffect := by
  intro i s d e h
  obtain ⟨t, ht⟩ := exec_total i (s.setDin d)
  have hdin : t.setDin d = t := by
    obtain ⟨-, -, -, -, -, -, hdin, -⟩ := onlyTheListedCommandsWrite i _ t ht
    rw [← show t.din = d from hdin]
    rfl
  exact ⟨t, ht.trans (congrArg _ hdin.symm), exec_setDin (s := s.setDin d) h ht⟩

end Machine

end Sys2Proof
end

section
/-! The nibble packer (40_nibble_packer.md): the bytes PACK touches (R86, R87), the buffer as one number (R88), and the
algebra of `pack` on any region (R90). -/

namespace Sys2Proof.Machine

/-! ### A pack that breaks no contract -/

theorem pack_of_admitted {boff w : Nat} (hf : admitted boff w) (m : Memory) (v : Word) :
    pack m boff v w = .ok (packField m boff v w) :=
  pack_ok ((checkField_ok boff w).2 hf) m v

theorem pack_eq_ok_iff {m m' : Memory} {boff w : Nat} {v : Word} :
    pack m boff v w = .ok m' ↔ admitted boff w ∧ packField m boff v w = m' := by
  constructor
  · intro h
    have hcheck : checkField boff w = .ok () := by
      unfold pack at h
      split at h
      · cases h
      · assumption
    exact ⟨(checkField_ok boff w).1 hcheck, Except.ok.inj ((pack_ok hcheck m v).symm.trans h)⟩
  · rintro ⟨hf, rfl⟩
    exact pack_of_admitted hf m v

/-! ### The touched bytes -/

theorem packByte_beBytes (v : Word) {n k : Nat} (hk : k ≤ n) :
    packByte (beBytes v n) k =
      ((if k < n then (v >>> (8 * (n - 1 - k))).setWidth 8 <<< 4 else 0) |||
        (if 1 ≤ k then (v >>> (8 * (n - 1 - (k - 1)))).setWidth 8 >>> 4 else 0) : Byte) := by
  unfold packByte
  rw [length_beBytes, getD_beBytes, getD_beBytes]
  congr 1
  · split <;> rfl
  · split
    · rw [if_pos (by omega)]
    · rfl

/-- The first touched byte takes no low nibble: there is no source byte before `dc[0]`. -/
theorem packByte_zero_and_low (dc : List Byte) : packByte dc 0 &&& 0x0F = 0 := by
  have hshift : ∀ b : Byte, b <<< 4 &&& 0x0F = 0 := by decide
  unfold packByte
  split
  · simpa using hshift _
  · simp

/-- The last touched byte takes no high nibble: there is no source byte after `dc[N-1]`. -/
theorem packByte_length_and_high (dc : List Byte) : packByte dc dc.length &&& 0xF0 = 0 := by
  have hshift : ∀ b : Byte, b >>> 4 &&& 0xF0 = 0 := by decide
  unfold packByte
  rw [if_neg (lt_irrefl _)]
  split
  · simpa using hshift _
  · rfl

theorem or_and_eq_of_and_eq_zero {x y mask : Byte} (h : y &&& mask = 0) : (x ||| y) &&& mask = x &&& mask := by
  rw [BitVec.and_or_distrib_right, h]
  exact BitVec.or_zero

/-- A touched byte after a pack of PACK's operand, cut to the width `w` (R86). -/
theorem read_packField_fieldValue (m : Memory) {boff w k : Nat} (d : Word) (hk : k ≤ w / 8) :
    (packField m boff (fieldValue w d) w).read (boff + k) = m.read (boff + k) ||| packByte (beBytes d (w / 8)) k := by
  rw [read_packField, if_pos (by omega), beBytes_fieldValue, Nat.add_sub_cancel_left]

/-- Settles O23: the touched bytes are ORed with `packByte`, which has no low nibble at the first of them and no high
nibble at the last. -/
theorem packOrsTheSourceNibbles : Obligations.PackOrsTheSourceNibbles := by
  intro s boff w h0 hf o N dc
  have htouched := fun k (hk : k ≤ N) => read_packField_fieldValue s.buf (boff := o) s.din hk
  refine ⟨_, exec_pack h0 ((checkField_ok _ _).2 hf), fun k hk => ?_, ?_, ?_, fun a ha => ?_, rfl⟩
  · exact (htouched k hk).trans (congrArg _ (packByte_beBytes s.din hk))
  · have hfirst := htouched 0 (Nat.zero_le N)
    exact (congrArg (· &&& 0x0F) hfirst).trans (or_and_eq_of_and_eq_zero (packByte_zero_and_low _))
  · have hlast : packByte (beBytes s.din N) N &&& 0xF0 = 0 := by
      simpa only [length_beBytes] using packByte_length_and_high (beBytes s.din N)
    exact (congrArg (· &&& 0xF0) (htouched N le_rfl)).trans (or_and_eq_of_and_eq_zero hlast)
  · exact (read_packField s.buf o _ w.toNat a).trans (if_neg (by omega))

/-! ### The wire bits of a pack -/

/-- The wire bits `pack` leaves, through `bswap_N(v)` (R88): the field's first wire bit gains its bit 0, and so on up. -/
theorem wireBit_packField_bswap (m : Memory) {boff w : Nat} (v : Word) (hf : admitted boff w) (n : Nat) :
    (packField m boff v w).wireBit n =
      (m.wireBit n || (decide (8 * boff + 4 ≤ n) && (bswap (w / 8) v).getLsbD (n - (8 * boff + 4)))) := by
  obtain ⟨hw, -⟩ := hf
  rw [wireBit_packField m boff v hw, getLsbD_bswap v (by omega), ← Bool.and_assoc, ← Bool.decide_and]
  congr 3
  exact propext (by omega)

/-- Only the field's wire bits can change (R90 (d)). -/
theorem wireBit_packField_outside (m : Memory) {boff w n : Nat} (v : Word) (hf : admitted boff w)
    (hn : ¬ inField boff w n) : (packField m boff v w).wireBit n = m.wireBit n := by
  rw [wireBit_packField m boff v hf.1, decide_eq_false hn, Bool.false_and, Bool.or_false]

/-- `BUFINT` after a pack (R88). -/
theorem bufint_packField (m : Memory) {boff w : Nat} (v : Word) (hf : admitted boff w) :
    (packField m boff v w).bufint = m.bufint ||| ((bswap (w / 8) v).setWidth 88 <<< (8 * boff + 4)) := by
  apply BitVec.eq_of_getLsbD_eq
  intro n hn
  rw [BitVec.getLsbD_or, Memory.getLsbD_bufint, Memory.getLsbD_bufint, wireBit_packField_bswap m v hf,
    BitVec.getLsbD_shiftLeft, BitVec.getLsbD_setWidth]
  simp only [hn, show n - (8 * boff + 4) < 88 by omega, decide_true, Bool.true_and, ← decide_not, Nat.not_lt]

/-- Settles O24: both parts wire bit by wire bit. -/
theorem packClosedForm : Obligations.PackClosedForm :=
  fun m _ _ v hf => ⟨_, pack_of_admitted hf m v, bufint_packField m v hf, fun _ => wireBit_packField_outside m v hf⟩

/-! ### The algebra of `pack` -/

/-- A second pack of the same value into the same field changes no byte (R90 (a)). -/
theorem read_packField_packField_same (m : Memory) {boff w : Nat} (v : Word) (hf : admitted boff w) (a : Nat) :
    (packField (packField m boff v w) boff v w).read a = (packField m boff v w).read a := by
  refine Memory.read_eq_of_wireBits fun j _ => ?_
  simp only [wireBit_packField_bswap _ v hf, Bool.or_assoc, Bool.or_self]

/-- Two packs, into fields that may overlap, leave the same bytes in either order (R90 (b)). -/
theorem read_packField_comm (m : Memory) {o₁ w₁ o₂ w₂ : Nat} (v₁ v₂ : Word) (hf₁ : admitted o₁ w₁)
    (hf₂ : admitted o₂ w₂) (a : Nat) :
    (packField (packField m o₁ v₁ w₁) o₂ v₂ w₂).read a = (packField (packField m o₂ v₂ w₂) o₁ v₁ w₁).read a := by
  refine Memory.read_eq_of_wireBits fun j _ => ?_
  simp only [wireBit_packField_bswap _ _ hf₁, wireBit_packField_bswap _ _ hf₂]
  exact Bool.or_right_comm _ _ _

/-- A pack clears no wire bit (R90 (c)). -/
theorem wireBit_packField_of_set {m : Memory} {boff w n : Nat} (v : Word) (hf : admitted boff w)
    (h : m.wireBit n = true) : (packField m boff v w).wireBit n = true := by
  rw [wireBit_packField m boff v hf.1, h, Bool.true_or]

/-- Settles O26: a pack ORs bits that do not depend on the buffer, and OR is idempotent, commutative and monotone. -/
theorem packAlgebra : Obligations.PackAlgebra := by
  intro m m₁ m₂ m₁₂ m₂₁ o₁ w₁ o₂ w₂ v₁ v₂ h₁ h₁₂ h₂ h₂₁
  obtain ⟨hf₁, rfl⟩ := pack_eq_ok_iff.1 h₁
  obtain ⟨hf₂, rfl⟩ := pack_eq_ok_iff.1 h₂
  obtain ⟨-, rfl⟩ := pack_eq_ok_iff.1 h₁₂
  obtain ⟨-, rfl⟩ := pack_eq_ok_iff.1 h₂₁
  exact ⟨⟨_, pack_of_admitted hf₁ _ v₁, read_packField_packField_same m v₁ hf₁⟩,
    read_packField_comm m v₁ v₂ hf₁ hf₂, fun _ => wireBit_packField_of_set v₁ hf₁,
    fun _ => wireBit_packField_outside m v₁ hf₁⟩

/-! ### A pack on a dirty region, read back -/

theorem wireBit_packField_inside (m : Memory) {boff w j : Nat} (v : Word) (hf : admitted boff w) :
    (packField m boff v w).wireBit (8 * boff + 4 + j) =
      (m.wireBit (8 * boff + 4 + j) || (bswap (w / 8) v).getLsbD j) := by
  rw [wireBit_packField_bswap m v hf, Nat.add_sub_cancel_left]
  simp

/-- What `unpack` reads after a pack is what it read before ORed with the value packed (R90 (e)). -/
theorem unpackField_packField (m : Memory) {boff w : Nat} {v : Word} (hf : admitted boff w) (hv : v.toNat < 2 ^ w) :
    unpackField (packField m boff v w) boff w = unpackField m boff w ||| v := by
  have hw := hf.1
  apply BitVec.eq_of_getLsbD_eq
  intro i _
  rw [BitVec.getLsbD_or, getLsbD_unpackField _ _ hw, getLsbD_unpackField _ _ hw, wireBit_packField_inside m v hf]
  by_cases hi : i < w
  · have hswap : (bswap (w / 8) v).getLsbD (8 * (w / 8 - 1 - i / 8) + i % 8) = v.getLsbD i := by
      rw [getLsbD_bswap v (by omega), decide_eq_true (by omega), Bool.true_and]
      congr 1
      omega
    simp [hi, hswap]
  · have htop : v.getLsbD i = false :=
      Nat.testBit_lt_two_pow (hv.trans_le (Nat.pow_le_pow_right (by decide) (by omega)))
    simp [hi, htop]

theorem unpackField_of_zero_region {m : Memory} {boff w : Nat} (hf : admitted boff w)
    (hzero : ∀ n, inField boff w n → m.wireBit n = false) : unpackField m boff w = 0 := by
  have hw := hf.1
  apply BitVec.eq_of_getLsbD_eq
  intro i _
  rw [getLsbD_unpackField m boff hw]
  by_cases hi : i < w
  · rw [hzero _ (by constructor <;> omega)]
    simp
  · simp [hi]

/-- Settles O27: `unpack` afterwards answers its old value ORed with `v`, and its old value on a zero region is 0. -/
theorem packOnADirtyRegion : Obligations.PackOnADirtyRegion := by
  intro m boff w v hf hv
  have hread := unpackField_packField m hf hv
  refine ⟨_, _, pack_of_admitted hf m v, unpack_ok ((checkField_ok boff w).2 hf) _, ?_,
    fun _ _ => wireBit_packField_inside m v hf, fun hzero => ?_⟩
  · rw [hread]
    apply BitVec.eq_of_getLsbD_eq
    simp +contextual
  · rw [hread, unpackField_of_zero_region hf hzero]
    exact BitVec.zero_or

end Sys2Proof.Machine
end

section
/-! The nibble unpacker (41_nibble_unpacker.md): its checks, which are the packer's (R101), the bytes UNPACK joins (R102), the
buffer as one number (R103), the two laws that make it the inverse of `pack` (R105), and the wire bits it sees (R106). -/

namespace Sys2Proof.Machine

/-! ### The checks, in the order WIDTH, UNSUP, RANGE -/

section
variable {boff w : Nat}

theorem checkField_width (hwidth : w = 0 ∨ w % 4 ≠ 0) : checkField boff w = .error .width :=
  if_pos hwidth

theorem checkField_unsup (hwidth : ¬ (w = 0 ∨ w % 4 ≠ 0)) (hunsup : w % 8 = 4 ∨ 32 < w) :
    checkField boff w = .error .unsup :=
  (if_neg hwidth).trans (if_pos hunsup)

theorem checkField_range (hwidth : ¬ (w = 0 ∨ w % 4 ≠ 0)) (hunsup : ¬ (w % 8 = 4 ∨ 32 < w))
    (hrange : 11 < boff + (w + 7) / 8 + 1) : checkField boff w = .error .range :=
  (if_neg hwidth).trans ((if_neg hunsup).trans (if_pos hrange))

theorem checkField_pass (hwidth : ¬ (w = 0 ∨ w % 4 ≠ 0)) (hunsup : ¬ (w % 8 = 4 ∨ 32 < w))
    (hrange : ¬ 11 < boff + (w + 7) / 8 + 1) : checkField boff w = .ok () :=
  (if_neg hwidth).trans ((if_neg hunsup).trans (if_neg hrange))

theorem pack_error {c : Cause} (h : checkField boff w = .error c) (m : Memory) (v : Word) :
    pack m boff v w = .error c := by simp [pack, h]

theorem unpack_error {c : Cause} (h : checkField boff w = .error c) (m : Memory) :
    unpack m boff w = .error c := by simp [unpack, h]

end

/-- Settles O28: `pack` and `unpack` both begin with `checkField`, whose tests come in this order. -/
theorem packAndUnpackRefuseAlike : Obligations.PackAndUnpackRefuseAlike := by
  intro m boff w v
  have hrefused {c : Cause} (h : checkField boff w = .error c) :
      pack m boff v w = .error c ∧ unpack m boff w = .error c := ⟨pack_error h m v, unpack_error h m⟩
  split_ifs with hwidth hunsup hrange
  · exact hrefused (checkField_width hwidth)
  · exact hrefused (checkField_unsup hwidth hunsup)
  · exact hrefused (checkField_range hwidth hunsup hrange)
  · have hpass := checkField_pass hwidth hunsup hrange
    exact ⟨⟨_, pack_ok hpass m v⟩, _, unpack_ok hpass m⟩

/-! ### The bytes and the size of the answer -/

theorem unpack_of_admitted {boff w : Nat} (hf : admitted boff w) (m : Memory) :
    unpack m boff w = .ok (unpackField m boff w) :=
  unpack_ok ((checkField_ok boff w).2 hf) m

theorem exec_unpack {s : State} {boff : BitVec 4} {w : BitVec 6} (h : s.flt = 0)
    (hf : checkField boff.toNat w.toNat = .ok ()) :
    exec (.unpack boff w) s = .next (answerOk (unpackField s.buf boff.toNat w.toNat) s) :=
  exec_ok h (by simp [bodyOf, hf])

/-- The source bytes of the value `unpack` answers are the bytes it joined from the buffer's nibbles (R102). -/
theorem beBytes_unpackField (m : Memory) {boff w : Nat} (hf : admitted boff w) :
    beBytes (unpackField m boff w) (w / 8) = (List.range (w / 8)).map (unpackByte m boff) := by
  have hlen : ((List.range (w / 8)).map (unpackByte m boff)).length = w / 8 := by simp
  have hround := beBytes_fromBe (dc := (List.range (w / 8)).map (unpackByte m boff)) (by omega)
  rwa [hlen] at hround

theorem byte_unpackField (m : Memory) {boff w k : Nat} (hf : admitted boff w) (hk : k < w / 8) :
    (unpackField m boff w >>> (8 * (w / 8 - 1 - k))).setWidth 8 = unpackByte m boff k := by
  have hbyte : (beBytes (unpackField m boff w) (w / 8)).getD k 0 = unpackByte m boff k := by
    rw [beBytes_unpackField m hf]
    simp [hk]
  rwa [getD_beBytes, if_pos hk] at hbyte

theorem unpackField_lt (m : Memory) {boff w : Nat} (hf : admitted boff w) :
    (unpackField m boff w).toNat < 2 ^ w := by
  refine Nat.lt_pow_two_of_testBit _ fun i hi => ?_
  rw [BitVec.testBit_toNat, getLsbD_unpackField m boff hf.1, decide_eq_false (by omega), Bool.false_and]

/-- Settles O29: UNPACK answers `unpackField`, whose size and bytes are the two lemmas before. -/
theorem unpackAnswersTheJoinedNibbles : Obligations.UnpackAnswersTheJoinedNibbles :=
  fun s _ _ h0 hf => ⟨_, exec_unpack h0 ((checkField_ok _ _).2 hf), unpackField_lt s.buf hf,
    fun _ => byte_unpackField s.buf hf⟩

/-! ### The answer and the field's wire bits, byte-reversed from one another -/

/-- A number whose low `w` bits are the field's wire bits is the answer with its bytes reversed (R103). -/
theorem unpackField_eq_bswap {m : Memory} {boff w : Nat} {x : Word} (hf : admitted boff w)
    (hx : ∀ j, j < w → x.getLsbD j = m.wireBit (8 * boff + 4 + j)) :
    unpackField m boff w = bswap (w / 8) x := by
  have hw := hf.1
  apply BitVec.eq_of_getLsbD_eq
  intro i _
  rw [getLsbD_unpackField m boff hw, getLsbD_bswap x (by omega), show 8 * (w / 8) = w by omega]
  by_cases hi : i < w
  · rw [hx _ (by omega)]
  · simp [hi]

/-- Settles O30: bit `j` of the number that `unpack` reverses is wire bit `8*boff+4+j`. -/
theorem unpackClosedForm : Obligations.UnpackClosedForm := by
  intro m boff w hf
  rw [unpack_of_admitted hf]
  refine congrArg _ (unpackField_eq_bswap hf fun j hj => ?_)
  rw [BitVec.getLsbD_ofNat, Nat.testBit_mod_two_pow, BitVec.testBit_toNat, BitVec.getLsbD_ushiftRight,
    Memory.getLsbD_bufint]
  simp [hj, show j < 32 by omega, show 8 * boff + 4 + j < 88 by omega]

/-- The answer with its bytes reversed is the field's wire bits as they lie (R103). -/
theorem getLsbD_bswap_unpackField (m : Memory) {boff w : Nat} (hf : admitted boff w) (j : Nat) :
    (bswap (w / 8) (unpackField m boff w)).getLsbD j = (decide (j < w) && m.wireBit (8 * boff + 4 + j)) := by
  have hw := hf.1
  rw [getLsbD_bswap _ (by omega), getLsbD_unpackField m boff hw, show 8 * (w / 8) = w by omega]
  by_cases hj : j < w
  · rw [show 8 * (w / 8 - 1 - (8 * (w / 8 - 1 - j / 8) + j % 8) / 8) +
      (8 * (w / 8 - 1 - j / 8) + j % 8) % 8 = j by omega]
    simp [hj, show 8 * (w / 8 - 1 - j / 8) + j % 8 < w by omega]
  · simp [hj]

/-! ### `unpack` and `pack` -/

/-- What `unpack` read, packed into any buffer, ORs the field's wire bits back in and leaves the rest (R105). -/
theorem wireBit_packField_unpackField (m z : Memory) {boff w : Nat} (hf : admitted boff w) (n : Nat) :
    (packField z boff (unpackField m boff w) w).wireBit n =
      (z.wireBit n || (decide (inField boff w n) && m.wireBit n)) := by
  rw [wireBit_packField_bswap z _ hf, getLsbD_bswap_unpackField m hf]
  by_cases hn : 8 * boff + 4 ≤ n
  · rw [show 8 * boff + 4 + (n - (8 * boff + 4)) = n by omega]
    simp [hn, inField, show n - (8 * boff + 4) < w ↔ n < 8 * boff + 4 + w by omega]
  · simp [hn]

theorem unpackField_packField_of_zero_region {m : Memory} {boff w : Nat} {v : Word} (hf : admitted boff w)
    (hv : v.toNat < 2 ^ w) (hzero : ∀ n, inField boff w n → m.wireBit n = false) :
    unpackField (packField m boff v w) boff w = v := by
  rw [unpackField_packField m hf hv, unpackField_of_zero_region hf hzero]
  exact BitVec.zero_or

/-- Packing back what `unpack` read restores every byte of a buffer whose field was cleared. -/
theorem read_packField_unpackField {m z : Memory} {boff w a : Nat} (hf : admitted boff w) (ha : a ≤ 10)
    (hz : ∀ n, n < 88 → z.wireBit n = (m.wireBit n && !decide (inField boff w n))) :
    (packField z boff (unpackField m boff w) w).read a = m.read a := by
  refine Memory.read_eq_of_wireBits fun j hj => ?_
  rw [wireBit_packField_unpackField m z hf, hz _ (by omega)]
  by_cases hin : inField boff w (8 * a + j)
  · rw [decide_eq_true hin]
    simp
  · rw [decide_eq_false hin]
    simp

/-- Settles O31: the first law from what a pack leaves to be read, the second byte by byte. -/
theorem unpackInvertsPack : Obligations.UnpackInvertsPack := by
  constructor
  · intro m boff w v hf hv hzero
    refine ⟨_, pack_of_admitted hf m v, ?_⟩
    rw [unpack_of_admitted hf, unpackField_packField_of_zero_region hf hv hzero]
  · intro m z boff w hf hz
    exact ⟨_, _, unpack_of_admitted hf m, pack_of_admitted hf z _, fun _ ha => read_packField_unpackField hf ha hz⟩

/-! ### What `unpack` sees -/

theorem unpackField_congr {m n : Memory} {boff w : Nat} (hf : admitted boff w)
    (h : ∀ k, inField boff w k → m.wireBit k = n.wireBit k) : unpackField m boff w = unpackField n boff w := by
  have hw := hf.1
  apply BitVec.eq_of_getLsbD_eq
  intro i _
  rw [getLsbD_unpackField m boff hw, getLsbD_unpackField n boff hw]
  by_cases hi : i < w
  · rw [h _ (by constructor <;> omega)]
  · simp [hi]

/-- Settles O32: the checks do not look at the buffer, and the answer's bits are the field's wire bits. -/
theorem unpackSeesItsFieldOnly : Obligations.UnpackSeesItsFieldOnly := by
  intro m n boff w h
  cases hcheck : checkField boff w with
  | error c => rw [unpack_error hcheck, unpack_error hcheck]
  | ok _ =>
    have hf : admitted boff w := (checkField_ok boff w).1 hcheck
    rw [unpack_of_admitted hf, unpack_of_admitted hf, unpackField_congr hf h]

end Sys2Proof.Machine
end

section
/-! The record codec (42_record_codec_sequencer.md): CLR and TAG (R114, R115), ENCODE as the tag and three packs and the bits
it leaves (R112, R126 to R130), the sequencer's cursor (R118), DECODE as three unpacks (R113), the two as inverses of one
another (R122 to R124), and both as runs of field commands (R120). -/

namespace Sys2Proof.Machine

/-! ### The three fields of the schema (R110) -/

theorem admitted_ctxId : admitted 0 16 := by decide
theorem admitted_dcnAdr : admitted 2 32 := by decide
theorem admitted_tcpId : admitted 6 32 := by decide

/-! ### CLR and TAG -/

theorem exec_tag {s : State} (h : s.flt = 0) : exec .tag s = .next (answerOk 0 { s with buf := writeTag s.buf }) :=
  exec_ok h rfl

/-- TAG's byte (R115). -/
theorem read_writeTag_zero (m : Memory) : (writeTag m).read 0 = (m.read 0 &&& 0xF0) ||| 0x02 :=
  Memory.read_write_same m 0 _

theorem read_writeTag_other (m : Memory) {a : Nat} (h : a ≠ 0) : (writeTag m).read a = m.read a :=
  Memory.read_write_other m _ h

/-- Settles O21: every byte of the zero buffer reads 0. -/
theorem clrZeroesTheBuffer : Obligations.ClrZeroesTheBuffer :=
  fun _ h0 => ⟨_, exec_clr h0, fun a _ => Memory.read_zero a, rfl⟩

/-- Settles O22: TAG is one write, to byte 0. -/
theorem tagWritesTheLowNibbleOfByteZero : Obligations.TagWritesTheLowNibbleOfByteZero :=
  fun s h0 => ⟨_, exec_tag h0, read_writeTag_zero s.buf, fun _ => read_writeTag_other s.buf, rfl⟩

/-! ### ENCODE -/

theorem buf_of_exec_encode {s t : State} (h0 : s.flt = 0) (h : exec .encode s = .next t) :
    t.buf = encodeRecord s.ctxId s.dcnAdr s.tcpId := by
  obtain rfl := Host.Outcome.next.inj ((exec_encode h0).symm.trans h)
  rfl

/-- Settles O34: `encodeRecord` is the tag and the three packs, whose fields are admitted. -/
theorem encodeIsTagThenThreePacks : Obligations.EncodeIsTagThenThreePacks :=
  fun _ h0 => ⟨writeTag Memory.zero, _, _, _,
    ⟨read_writeTag_zero Memory.zero, fun _ => read_writeTag_other Memory.zero⟩,
    pack_of_admitted admitted_ctxId _ _, pack_of_admitted admitted_dcnAdr _ _,
    pack_of_admitted admitted_tcpId _ _, exec_encode h0⟩

/-- The low nibble of byte 0 is wire nibble 0, where the tag stands. -/
theorem Memory.tag_iff_wireNibble (m : Memory) : m.read 0 &&& 0x0F = 0x02 ↔ m.wireNibble 0 = 2 := by
  have hmask : ∀ b : Byte, b &&& 0x0F = 0x02 ↔ b.extractLsb' 0 4 = 2 := by decide
  exact hmask (m.read 0)

/-- The high nibble of byte 10 is wire nibble 21, the padding; here shifted down. -/
theorem Memory.padding_shift_iff_wireNibble (m : Memory) : m.read 10 >>> 4 = 0 ↔ m.wireNibble 21 = 0 := by
  have hshift : ∀ b : Byte, b >>> 4 = 0 ↔ b.extractLsb' 4 4 = 0 := by decide
  exact hshift (m.read 10)

/-- The same nibble under its mask. -/
theorem Memory.padding_mask_iff_wireNibble (m : Memory) : m.read 10 &&& 0xF0 = 0 ↔ m.wireNibble 21 = 0 := by
  have hmask : ∀ b : Byte, b &&& 0xF0 = 0 ↔ b.extractLsb' 4 4 = 0 := by decide
  exact hmask (m.read 10)

/-- Settles O36: wire nibble 0 of the encoded record. -/
theorem encodePlacesTheTag : Obligations.EncodePlacesTheTag :=
  fun _ h0 => ⟨_, exec_encode h0, (Memory.tag_iff_wireNibble _).2 (wireNibble_encodeRecord_tag _ _ _)⟩

/-- Settles O37: wire nibble 21 of the encoded record. -/
theorem encodeClearsThePadding : Obligations.EncodeClearsThePadding :=
  fun _ h0 => ⟨_, exec_encode h0, (Memory.padding_shift_iff_wireNibble _).2 (wireNibble_encodeRecord_padding _ _ _)⟩

/-- Settles O40: each of the fields' wire bits is a bit of that field, and the others are constants. -/
theorem fieldsDoNotInterfere : Obligations.FieldsDoNotInterfere := by
  intro s₁ s₂ t₁ t₂ h₁ h₂ ht₁ ht₂
  rw [buf_of_exec_encode h₁ ht₁, buf_of_exec_encode h₂ ht₂]
  refine ⟨fun hc n hlo hhi => ?_, fun hd n hlo hhi => ?_, fun ht n hlo hhi => ?_, fun n hn => ?_⟩
  · obtain ⟨j, rfl⟩ := Nat.exists_eq_add_of_le hlo
    rw [wireBit_encodeRecord_ctxId _ _ _ (by omega), wireBit_encodeRecord_ctxId _ _ _ (by omega), hc]
  · obtain ⟨j, rfl⟩ := Nat.exists_eq_add_of_le hlo
    rw [wireBit_encodeRecord_dcnAdr _ _ _ (by omega), wireBit_encodeRecord_dcnAdr _ _ _ (by omega), hd]
  · obtain ⟨j, rfl⟩ := Nat.exists_eq_add_of_le hlo
    rw [wireBit_encodeRecord_tcpId _ _ _ (by omega), wireBit_encodeRecord_tcpId _ _ _ (by omega), ht]
  · rw [wireBit_encodeRecord, wireBit_encodeRecord]
    by_cases h4 : n < 4
    · rw [if_pos h4, if_pos h4]
    · simp only [h4, show ¬ n < 20 by omega, show ¬ n < 52 by omega, show ¬ n < 84 by omega, if_false]

/-! ### The encoded buffer as one number -/

/-- Into a zero region `pack` adds what it ORs, for the two share no bit (R130). -/
theorem bufint_packField_eq_add {m : Memory} {boff w : Nat} (v : Word) (hf : admitted boff w)
    (hzero : ∀ n, inField boff w n → m.wireBit n = false) :
    (packField m boff v w).bufint = m.bufint + ((bswap (w / 8) v).setWidth 88 <<< (8 * boff + 4)) := by
  rw [bufint_packField m v hf, BitVec.add_eq_or_of_and_eq_zero]
  apply BitVec.eq_of_getLsbD_eq
  intro n hn
  rw [BitVec.getLsbD_and, Memory.getLsbD_bufint, BitVec.getLsbD_shiftLeft, BitVec.getLsbD_setWidth,
    getLsbD_bswap v (by omega)]
  by_cases hin : inField boff w n
  · simp [hzero n hin]
  · by_cases hlo : n < 8 * boff + 4
    · simp [hlo]
    · simp [show ¬ n - (8 * boff + 4) < 8 * (w / 8) by omega]

theorem wireBit_writeTag_zero {n : Nat} (h : 4 ≤ n) : (writeTag Memory.zero).wireBit n = false := by
  rw [wireBit_writeTag, if_neg (by omega), Memory.wireBit_zero]

theorem bufint_writeTag_zero : (writeTag Memory.zero).bufint = 0x2 := by decide

theorem bufint_encodeRecord_eq_or (c : BitVec 16) (d t : BitVec 32) :
    (encodeRecord c d t).bufint =
      0x2#88 ||| (bswap 2 (c.setWidth 32)).setWidth 88 <<< 4 ||| (bswap 4 d).setWidth 88 <<< 20 |||
        (bswap 4 t).setWidth 88 <<< 52 := by
  rw [encodeRecord, bufint_packField _ _ admitted_tcpId, bufint_packField _ _ admitted_dcnAdr,
    bufint_packField _ _ admitted_ctxId, bufint_writeTag_zero]
  rfl

/-- Every pack of ENCODE meets a zero region, so every OR is an addition. -/
theorem bufint_encodeRecord_eq_add (c : BitVec 16) (d t : BitVec 32) :
    (encodeRecord c d t).bufint =
      0x2#88 + (bswap 2 (c.setWidth 32)).setWidth 88 <<< 4 + (bswap 4 d).setWidth 88 <<< 20 +
        (bswap 4 t).setWidth 88 <<< 52 := by
  have hctxId : ∀ n, inField 0 16 n → (writeTag Memory.zero).wireBit n = false :=
    fun n hn => wireBit_writeTag_zero (by omega)
  have hdcnAdr : ∀ n, inField 2 32 n →
      (packField (writeTag Memory.zero) 0 (c.setWidth 32) 16).wireBit n = false := fun n hn => by
    rw [wireBit_packField_outside _ _ admitted_ctxId (by omega), wireBit_writeTag_zero (by omega)]
  have htcpId : ∀ n, inField 6 32 n →
      (packField (packField (writeTag Memory.zero) 0 (c.setWidth 32) 16) 2 d 32).wireBit n = false := fun n hn => by
    rw [wireBit_packField_outside _ _ admitted_dcnAdr (by omega),
      wireBit_packField_outside _ _ admitted_ctxId (by omega), wireBit_writeTag_zero (by omega)]
  rw [encodeRecord, bufint_packField_eq_add t admitted_tcpId htcpId, bufint_packField_eq_add d admitted_dcnAdr hdcnAdr,
    bufint_packField_eq_add _ admitted_ctxId hctxId, bufint_writeTag_zero]
  rfl

/-- Settles O38: each pack ORs its term into `BUFINT`, and adds it, its region being zero. -/
theorem encodeClosedForm : Obligations.EncodeClosedForm :=
  fun c d t => ⟨bufint_encodeRecord_eq_or c d t, bufint_encodeRecord_eq_add c d t⟩

/-! ### The cursor through ENCODE's micro-steps -/

@[simp] theorem encodeEntry_fi (s : State) : (encodeEntry s).fi = s.fi + 1 := by
  unfold encodeEntry
  split <;> rfl

@[simp] theorem encodeEntry_noff (s : State) :
    (encodeEntry s).noff = s.noff + BitVec.ofNat 5 (schemaWidth s.fi / 4) := by
  unfold encodeEntry
  split <;> rfl

@[simp] theorem encodeStart_fi (s : State) : (encodeStart s).fi = 0 := rfl
@[simp] theorem encodeStart_noff (s : State) : (encodeStart s).noff = 0 := rfl

/-- The cursor after `k` of ENCODE's micro-steps. -/
theorem cursor_encodeEntries (s : State) (k : Nat) (hk : k ≤ 4) :
    (runEntries encodeEntry k (encodeStart s)).fi = BitVec.ofNat 2 k ∧
    (runEntries encodeEntry k (encodeStart s)).noff = [0, 1, 5, 13, 21].getD k 0 := by
  interval_cases k <;> simp [runEntries, schemaWidth]

/-- Settles O39: the cursor's five values, and the schema's table. -/
theorem sequencerVisitsTheSchema : Obligations.SequencerVisitsTheSchema := by
  intro s at'
  have hcursor := cursor_encodeEntries s
  obtain ⟨hfi₀, hnoff₀⟩ := hcursor 0 (by decide)
  obtain ⟨hfi₁, hnoff₁⟩ := hcursor 1 (by decide)
  obtain ⟨hfi₂, hnoff₂⟩ := hcursor 2 (by decide)
  obtain ⟨hfi₃, hnoff₃⟩ := hcursor 3 (by decide)
  obtain ⟨-, hnoff₄⟩ := hcursor 4 (by decide)
  refine ⟨hfi₀, hnoff₀, hfi₁, hnoff₁, by rw [hnoff₁]; rfl, hfi₂, hnoff₂, by rw [hnoff₂]; rfl,
    hfi₃, hnoff₃, by rw [hnoff₃]; rfl, hnoff₄, fun k hk => ?_, rfl, rfl⟩
  obtain ⟨hfi, hnoff⟩ := hcursor k (by omega)
  obtain ⟨-, hnoff'⟩ := hcursor (k + 1) (by omega)
  rw [hfi, hnoff, hnoff']
  interval_cases k <;> decide

/-! ### DECODE -/

theorem exec_decode {s : State} (h : s.flt = 0) :
    exec .decode s =
      .next (answerOk 0 { s with
        ctxId := (decodeRecord s.buf).1
        dcnAdr := (decodeRecord s.buf).2.1
        tcpId := (decodeRecord s.buf).2.2
        fi := 0, noff := 0 }) :=
  exec_ok h (by rw [← decodeRun_eq]; rfl)

theorem record_of_exec_decode {s t : State} (h0 : s.flt = 0) (h : exec .decode s = .next t) :
    decodeRecord s.buf = (t.ctxId, t.dcnAdr, t.tcpId) := by
  obtain rfl := Host.Outcome.next.inj ((exec_decode h0).symm.trans h)
  rfl

/-- CTX_ID holds the whole 16-bit value that `unpack` reads. -/
theorem setWidth_decodeCtxId (m : Memory) : (decodeRecord m).1.setWidth 32 = unpackField m 0 16 := by
  apply BitVec.eq_of_toNat_eq
  have hlt := unpackField_lt m admitted_ctxId
  simp only [decodeRecord, BitVec.toNat_setWidth]
  omega

theorem unpack_decodeCtxId (m : Memory) : unpack m 0 16 = .ok ((decodeRecord m).1.setWidth 32) := by
  rw [unpack_of_admitted admitted_ctxId, setWidth_decodeCtxId]

/-- Settles O41: `decodeRecord` is the three unpacks, whose fields are admitted. -/
theorem decodeIsThreeUnpacks : Obligations.DecodeIsThreeUnpacks :=
  fun s h0 => ⟨_, _, _, unpack_decodeCtxId s.buf, unpack_of_admitted admitted_dcnAdr s.buf,
    unpack_of_admitted admitted_tcpId s.buf, exec_decode h0⟩

/-! ### ENCODE and DECODE -/

theorem fieldBitAt_lt {nBytes j : Nat} (h : j < 8 * nBytes) : fieldBitAt nBytes j < 8 * nBytes := by
  unfold fieldBitAt
  omega

/-- Reversing the bytes twice leaves every bit where it was. -/
theorem fieldBitAt_fieldBitAt {nBytes j : Nat} (h : j < 8 * nBytes) : fieldBitAt nBytes (fieldBitAt nBytes j) = j := by
  unfold fieldBitAt
  omega

/-- Decoding inverts encoding (R124). -/
theorem decodeRecord_encodeRecord (c : BitVec 16) (d t : BitVec 32) :
    decodeRecord (encodeRecord c d t) = (c, d, t) := by
  refine Prod.ext ?_ (Prod.ext ?_ ?_)
  · refine BitVec.eq_of_getLsbD_eq fun i hi => ?_
    rw [getLsbD_decodeCtxId _ hi, wireBit_encodeRecord_ctxId c d t (fieldBitAt_lt hi), fieldBitAt_fieldBitAt hi]
  · refine BitVec.eq_of_getLsbD_eq fun i hi => ?_
    rw [getLsbD_decodeDcnAdr _ hi, wireBit_encodeRecord_dcnAdr c d t (fieldBitAt_lt hi), fieldBitAt_fieldBitAt hi]
  · refine BitVec.eq_of_getLsbD_eq fun i hi => ?_
    rw [getLsbD_decodeTcpId _ hi, wireBit_encodeRecord_tcpId c d t (fieldBitAt_lt hi), fieldBitAt_fieldBitAt hi]

/-- The buffer that encodes what `m` decodes to: what DECODE and then ENCODE leave of `m`. -/
def Memory.reencoded (m : Memory) : Memory :=
  encodeRecord (decodeRecord m).1 (decodeRecord m).2.1 (decodeRecord m).2.2

/-- Encoding what was decoded brings back every field bit and sets the tag and the padding (R124). -/
theorem wireBit_reencoded (m : Memory) (n : Nat) :
    m.reencoded.wireBit n = if n < 4 then decide (n = 1) else if n < 84 then m.wireBit n else false := by
  rw [Memory.reencoded, wireBit_encodeRecord]
  split_ifs
  · rfl
  · rw [getLsbD_decodeCtxId m (fieldBitAt_lt (by omega)), fieldBitAt_fieldBitAt (by omega),
      Nat.add_sub_cancel' (by omega)]
  · omega
  · rw [getLsbD_decodeDcnAdr m (fieldBitAt_lt (by omega)), fieldBitAt_fieldBitAt (by omega),
      Nat.add_sub_cancel' (by omega)]
  · omega
  · rw [getLsbD_decodeTcpId m (fieldBitAt_lt (by omega)), fieldBitAt_fieldBitAt (by omega),
      Nat.add_sub_cancel' (by omega)]
  · rfl

/-- Buffers decode alike exactly when their field bits, wire bits 4 to 83, are alike (R122, R123). -/
theorem decodeRecord_eq_iff {m m' : Memory} :
    decodeRecord m = decodeRecord m' ↔ ∀ n, 4 ≤ n → n < 84 → m.wireBit n = m'.wireBit n := by
  constructor
  · intro h n hlo hhi
    have hfield : ∀ m : Memory, m.reencoded.wireBit n = m.wireBit n := fun m => by
      rw [wireBit_reencoded, if_neg (by omega), if_pos hhi]
    rw [← hfield m, ← hfield m', Memory.reencoded, Memory.reencoded, h]
  · intro h
    have hfield {boff w : Nat} (hf : admitted boff w) (hin : 8 * boff + 4 + w ≤ 84) :
        unpackField m boff w = unpackField m' boff w :=
      unpackField_congr hf fun k hk => h k (by omega) (by omega)
    simp only [decodeRecord, hfield admitted_ctxId (by decide), hfield admitted_dcnAdr (by decide),
      hfield admitted_tcpId (by decide)]

/-- Settles O42: field bits alike decode alike. -/
theorem decodeIgnoresTagAndPadding : Obligations.DecodeIgnoresTagAndPadding := by
  intro s₁ s₂ h₁ h₂ hbits
  have hrecord : decodeRecord s₁.buf = decodeRecord s₂.buf := decodeRecord_eq_iff.2 hbits
  exact ⟨_, _, exec_decode h₁, exec_decode h₂, congrArg (·.1) hrecord, congrArg (·.2.1) hrecord,
    congrArg (·.2.2) hrecord⟩

/-- Settles O43: equal records have equal field bits, and the encoded record decodes to the record. -/
theorem decodeIsOneToOneOnFieldBits : Obligations.DecodeIsOneToOneOnFieldBits := by
  refine ⟨fun s h0 => ⟨_, exec_decode h0, h0, rfl⟩, fun s₁ s₂ t₁ t₂ h₁ h₂ ht₁ ht₂ hc hd ht => ?_, fun c d t => ?_⟩
  · refine decodeRecord_eq_iff.1 ?_
    rw [record_of_exec_decode h₁ ht₁, record_of_exec_decode h₂ ht₂, hc, hd, ht]
  · exact ⟨encodeRecord c d t, wf_encodeRecord c d t, decodeRecord_encodeRecord c d t⟩

theorem Memory.wireBit_eq_of_wireNibble_eq {m m' : Memory} {n k : Nat} (h : m.wireNibble k = m'.wireNibble k)
    (hn : n / 4 = k) : m.wireBit n = m'.wireBit n := by
  rw [show n = 4 * k + n % 4 by omega, ← m.getLsbD_wireNibble k (by omega), ← m'.getLsbD_wireNibble k (by omega), h]

/-- Re-encoding restores a buffer exactly when its tag and padding were right: no field bit changes (R124). -/
theorem read_reencoded_iff (m : Memory) :
    (∀ a, a ≤ 10 → m.reencoded.read a = m.read a) ↔ m.read 0 &&& 0x0F = 0x02 ∧ m.read 10 &&& 0xF0 = 0 := by
  have htag : m.reencoded.wireNibble 0 = 2 := wireNibble_encodeRecord_tag _ _ _
  have hpadding : m.reencoded.wireNibble 21 = 0 := wireNibble_encodeRecord_padding _ _ _
  constructor
  · intro h
    rw [← h 0 (by decide), ← h 10 (by decide)]
    exact ⟨(Memory.tag_iff_wireNibble _).2 htag, (Memory.padding_mask_iff_wireNibble _).2 hpadding⟩
  · rintro ⟨hlow, hhigh⟩ a ha
    refine Memory.read_eq_of_wireBits fun j hj => ?_
    by_cases h4 : 8 * a + j < 4
    · exact Memory.wireBit_eq_of_wireNibble_eq (htag.trans ((Memory.tag_iff_wireNibble m).1 hlow).symm) (by omega)
    · by_cases h84 : 8 * a + j < 84
      · rw [wireBit_reencoded, if_neg h4, if_pos h84]
      · exact Memory.wireBit_eq_of_wireNibble_eq (hpadding.trans ((Memory.padding_mask_iff_wireNibble m).1 hhigh).symm)
          (by omega)

/-- Settles O44: `decodeRecord_encodeRecord`, and the wire bits of the re-encoded buffer. -/
theorem encodeAndDecodeRoundTrip : Obligations.EncodeAndDecodeRoundTrip := by
  constructor
  · intro s h0
    have hrecord := decodeRecord_encodeRecord s.ctxId s.dcnAdr s.tcpId
    refine ⟨_, _, exec_encode h0, exec_decode h0, ?_⟩
    simp [hrecord]
  · intro s h0
    exact ⟨_, _, exec_decode h0, exec_encode h0, fun n _ => wireBit_reencoded s.buf n, read_reencoded_iff s.buf⟩

/-! ### ENCODE and DECODE as field commands -/

/-- Cutting PACK's operand to the field's width leaves what `pack` does. -/
theorem packField_fieldValue (m : Memory) (boff w : Nat) (d : Word) :
    packField m boff (fieldValue w d) w = packField m boff d w := by
  simp only [packField, beBytes_fieldValue]

/-- TAG, or PACK of an admitted field. -/
def writesWire (i : Instr) : Prop :=
  i = .tag ∨ ∃ boff w, i = .pack boff w ∧ admitted boff.toNat w.toNat

/-- Wire bit `n` after TAG or a PACK with its data operand, from the wire bits before: TAG sets the bits below 4, PACK ORs
(R115, R88). No other command is asked about. -/
def wireBitsAfter (before : Nat → Bool) (c : Instr × Word) (n : Nat) : Bool :=
  match c.1 with
  | .tag => if n < 4 then decide (n = 1) else before n
  | .pack boff w =>
    before n || (decide (8 * boff.toNat + 4 ≤ n) && (bswap (w.toNat / 8) c.2).getLsbD (n - (8 * boff.toNat + 4)))
  | _ => before n

theorem exec_writesWire {i : Instr} {s : State} (h0 : s.flt = 0) (hi : writesWire i) (d : Word) :
    ∃ t, exec i { s with din := d } = .next t ∧ t.flt = 0 ∧
      t.buf.wireBit = wireBitsAfter s.buf.wireBit (i, d) := by
  obtain rfl | ⟨boff, w, rfl, hf⟩ := hi
  · exact ⟨_, exec_tag h0, h0, funext (wireBit_writeTag s.buf)⟩
  · refine ⟨_, exec_pack h0 ((checkField_ok _ _).2 hf), h0, funext fun n => ?_⟩
    simp only [answerOk_buf, packField_fieldValue]
    exact wireBit_packField_bswap s.buf d hf n

/-- TAG's bits lie below every field, so PACK's come before or after them alike. -/
theorem wireBitsAfter_tag_pack (before : Nat → Bool) (d v : Word) (boff : BitVec 4) (w : BitVec 6) :
    wireBitsAfter (wireBitsAfter before (.tag, d)) (.pack boff w, v) =
      wireBitsAfter (wireBitsAfter before (.pack boff w, v)) (.tag, d) := by
  funext n
  by_cases h4 : n < 4
  · simp [wireBitsAfter, h4, show ¬ 8 * boff.toNat + 4 ≤ n by omega]
  · simp [wireBitsAfter, h4]

/-- Two such commands leave the same wire bits in either order (R120 (b)). -/
theorem wireBitsAfter_comm (before : Nat → Bool) {c e : Instr × Word} (hc : writesWire c.1) (he : writesWire e.1) :
    wireBitsAfter (wireBitsAfter before c) e = wireBitsAfter (wireBitsAfter before e) c := by
  obtain ⟨i, d⟩ := c
  obtain ⟨k, v⟩ := e
  obtain rfl | ⟨_, _, rfl, -⟩ := hc
  · obtain rfl | ⟨_, _, rfl, -⟩ := he
    · rfl
    · exact wireBitsAfter_tag_pack before d v _ _
  · obtain rfl | ⟨_, _, rfl, -⟩ := he
    · exact (wireBitsAfter_tag_pack before v d _ _).symm
    · exact funext fun _ => Bool.or_right_comm _ _ _

/-- A run of such commands completes, and its wire bits are those of the commands one after the other. -/
theorem runCommands_writesWire {p : List (Instr × Word)} (hp : ∀ c ∈ p, writesWire c.1) {s : State} (h0 : s.flt = 0) :
    ∃ u, runCommands p s = some u ∧ u.buf.wireBit = p.foldl wireBitsAfter s.buf.wireBit := by
  induction p generalizing s with
  | nil => exact ⟨s, rfl, rfl⟩
  | cons c p ih =>
    obtain ⟨i, d⟩ := c
    obtain ⟨hi, hp⟩ := List.forall_mem_cons.1 hp
    obtain ⟨t, ht, ht0, hbits⟩ := exec_writesWire h0 hi d
    obtain ⟨u, hu, hubits⟩ := ih hp ht0
    exact ⟨u, by simp only [runCommands, ht, hu], by rw [hubits, hbits]; rfl⟩

/-- TAG and the three PACKs of a record, with their data operands (R120 (a)). -/
def recordCommands (c : BitVec 16) (d t : BitVec 32) : List (Instr × Word) :=
  [(.tag, 0), (.pack 0 16, c.setWidth 32), (.pack 2 32, d), (.pack 6 32, t)]

theorem writesWire_of_mem_recordCommands {c : BitVec 16} {d t : BitVec 32} {x : Instr × Word}
    (hx : x ∈ recordCommands c d t) : writesWire x.1 := by
  simp only [recordCommands, List.mem_cons, List.not_mem_nil, or_false] at hx
  obtain rfl | rfl | rfl | rfl := hx
  · exact .inl rfl
  · exact .inr ⟨_, _, rfl, admitted_ctxId⟩
  · exact .inr ⟨_, _, rfl, admitted_dcnAdr⟩
  · exact .inr ⟨_, _, rfl, admitted_tcpId⟩

/-- In the schema's order and from a zero buffer they leave the encoded record. -/
theorem foldl_recordCommands (c : BitVec 16) (d t : BitVec 32) :
    (recordCommands c d t).foldl wireBitsAfter Memory.zero.wireBit = (encodeRecord c d t).wireBit := by
  funext n
  rw [encodeRecord, wireBit_packField_bswap _ _ admitted_tcpId, wireBit_packField_bswap _ _ admitted_dcnAdr,
    wireBit_packField_bswap _ _ admitted_ctxId, wireBit_writeTag]
  rfl

/-- CLR and then a record's commands in any order leave the encoded record (R120). -/
theorem runCommands_clr_recordCommands {p : List (Instr × Word)} {c : BitVec 16} {d t : BitVec 32}
    (hp : p.Perm (recordCommands c d t)) {s : State} (h0 : s.flt = 0) :
    ∃ u, runCommands ((.clr, 0) :: p) s = some u ∧ ∀ a, u.buf.read a = (encodeRecord c d t).read a := by
  have hwrites : ∀ x ∈ p, writesWire x.1 := fun x hx => writesWire_of_mem_recordCommands (hp.mem_iff.1 hx)
  obtain ⟨u, hu, hbits⟩ :=
    runCommands_writesWire hwrites (s := answerOk 0 { s with din := 0, buf := Memory.zero }) h0
  have hperm : p.foldl wireBitsAfter Memory.zero.wireBit = (encodeRecord c d t).wireBit :=
    (hp.foldl_eq' (fun x hx y hy before => wireBitsAfter_comm before (hwrites x hx) (hwrites y hy)) _).trans
      (foldl_recordCommands c d t)
  refine ⟨u, by rw [runCommands, exec_clr (s := { s with din := 0 }) h0]; exact hu, fun a => ?_⟩
  exact Memory.read_eq_of_wireBits fun j _ => congrFun (hbits.trans hperm) (8 * a + j)

/-- Settles O45: ENCODE's buffer by `runCommands_clr_recordCommands`, DECODE's registers by the three UNPACKs. -/
theorem recordCommandsEqualFieldCommands : Obligations.RecordCommandsEqualFieldCommands := by
  constructor
  · intro s p h0 hp
    obtain ⟨u, hu, hread⟩ := runCommands_clr_recordCommands hp h0
    exact ⟨_, u, exec_encode h0, hu, fun a _ => hread a⟩
  · intro s h0
    have hctxId : exec (.unpack 0 16) s = .next (answerOk ((decodeRecord s.buf).1.setWidth 32) s) := by
      rw [setWidth_decodeCtxId]
      exact exec_unpack h0 ((checkField_ok 0 16).2 admitted_ctxId)
    exact ⟨_, exec_decode h0, hctxId, exec_unpack h0 ((checkField_ok 2 32).2 admitted_dcnAdr),
      exec_unpack h0 ((checkField_ok 6 32).2 admitted_tcpId)⟩

end Sys2Proof.Machine
end

section
/-! Host access (43_host_access.md): WRR and RDR over the four register names (R140, R141, R21), and WRB and RDB, whose address
is checked first (R142, R143). -/

namespace Sys2Proof.Machine

/-! ### A command that faults -/

theorem exec_error {i : Instr} {s : State} {c : Cause} (h : s.flt = 0) (hbody : bodyOf i s = .error c) :
    exec i s = .next (raise c s) :=
  (exec_eq i s).trans (runCommand_error h hbody)

/-! ### The record registers -/

theorem exec_wrr {s : State} {r : Reg} (h : s.flt = 0) (hr : r ≠ .tag) :
    exec (.wrr r) s = .next (answerOk 0 (writeReg r s.din s)) :=
  exec_ok h (if_neg hr)

theorem exec_wrr_tag {s : State} (h : s.flt = 0) : exec (.wrr .tag) s = .next (raise .illcmd s) :=
  exec_error h rfl

theorem exec_rdr {s : State} (r : Reg) (h : s.flt = 0) : exec (.rdr r) s = .next (answerOk (readReg r s) s) :=
  exec_ok h rfl

/-- CTX_ID takes the low half of the operand (R140). -/
theorem writeReg_ctxId_eq (v : Word) (s : State) :
    writeReg .ctxId v s = { s with ctxId := v.extractLsb' 0 16 } := by
  rw [writeReg, BitVec.setWidth_eq_extractLsb' (by decide)]

/-- Settles O46: `writeReg` of the three registers that can be written, and the fault of the one that cannot. -/
theorem wrrWritesTheNamedRegister : Obligations.WrrWritesTheNamedRegister := by
  intro s h0
  refine ⟨?_, exec_wrr h0 (by decide), exec_wrr h0 (by decide), exec_wrr_tag h0⟩
  rw [exec_wrr h0 (by decide), writeReg_ctxId_eq]
  rfl

/-- Settles O47: RDR answers `readReg`, of each of the four names. -/
theorem rdrAnswersTheNamedRegister : Obligations.RdrAnswersTheNamedRegister :=
  fun _ h0 => ⟨exec_rdr .tag h0, exec_rdr .ctxId h0, exec_rdr .dcnAdr h0, exec_rdr .tcpId h0⟩

/-! ### One byte of the wire buffer -/

theorem checkAddr_pass {a : Nat} (h : a ≤ 10) : checkAddr a = .ok () :=
  if_pos (Nat.lt_succ_of_le h)

theorem checkAddr_range {a : Nat} (h : ¬ a ≤ 10) : checkAddr a = .error .range :=
  if_neg fun hlt => h (Nat.le_of_lt_succ hlt)

theorem exec_wrb {s : State} {addr : BitVec 4} (h : s.flt = 0) (ha : addr.toNat ≤ 10) :
    exec (.wrb addr) s = .next (answerOk 0 { s with buf := s.buf.write addr.toNat (byteValue s.din) }) :=
  exec_ok h (by simp [bodyOf, checkAddr_pass ha])

theorem exec_wrb_range {s : State} {addr : BitVec 4} (h : s.flt = 0) (ha : ¬ addr.toNat ≤ 10) :
    exec (.wrb addr) s = .next (raise .range s) :=
  exec_error h (by simp [bodyOf, checkAddr_range ha])

theorem exec_rdb_range {s : State} {addr : BitVec 4} (h : s.flt = 0) (ha : ¬ addr.toNat ≤ 10) :
    exec (.rdb addr) s = .next (raise .range s) :=
  exec_error h (by simp [bodyOf, checkAddr_range ha])

theorem byteValue_eq_extractLsb' (d : Word) : byteValue d = d.extractLsb' 0 8 :=
  BitVec.setWidth_eq_extractLsb' (by decide)

/-- Settles O48, by the address: WRB is one write of the buffer, or the fault RANGE. -/
theorem wrbOverwritesOneByte : Obligations.WrbOverwritesOneByte := by
  intro s addr h0
  split_ifs with ha
  · have hbyte : (s.buf.write addr.toNat (byteValue s.din)).read addr.toNat = s.din.extractLsb' 0 8 := by
      rw [Memory.read_write_same, byteValue_eq_extractLsb']
    exact ⟨_, exec_wrb h0 ha, hbyte, fun _ => Memory.read_write_other s.buf _, rfl⟩
  · exact exec_wrb_range h0 ha

/-- Settles O49, by the address: RDB answers one read of the buffer, or the fault RANGE. -/
theorem rdbAnswersOneByte : Obligations.RdbAnswersOneByte := by
  intro s addr h0
  split_ifs with ha
  · exact exec_rdb h0 (Nat.lt_succ_of_le ha)
  · exact exec_rdb_range h0 ha

end Sys2Proof.Machine
end

section
/-! Exceptions (60_exceptions.md): which words are illegal (R65, R155), the tests a command word makes and their
order (R158), fault entry (R156), the halted block (R157), and what a fault depends on (R150, R67). -/

namespace Sys2Proof

/-! ### Legal words -/

theorem exists_toNat_indexOfReg {n : Nat} (h : n ≤ 3) : ∃ r, n = (indexOfReg r).toNat := by
  interval_cases n
  exacts [⟨.tag, rfl⟩, ⟨.ctxId, rfl⟩, ⟨.dcnAdr, rfl⟩, ⟨.tcpId, rfl⟩]

theorem legalWord_eq_true_iff {cmd : CmdWord} :
    legalWord cmd = true ↔ ∃ i, decodeWord cmd = .ok i ∧ i.wellFormed = true := by
  unfold legalWord
  split <;> simp_all

/-- The numbers R65 cuts from the word of a command are its operation code and operands. -/
theorem toNat_fields_of_decodeWord {cmd : CmdWord} {i : Instr} (h : decodeWord cmd = .ok i) :
    cmd.toNat / 4096 = (opcodeOf i).toNat ∧ cmd.toNat / 256 % 16 = (aOperand i).toNat ∧
      cmd.toNat / 64 % 4 = 0 ∧ cmd.toNat % 64 = (wOperand i).toNat := by
  obtain ⟨hop, ha, hz, hw⟩ := fields_of_decodeWord h
  rw [← toNat_opField, ← toNat_aField, ← toNat_zField, ← toNat_wField, hop, ha, hz, hw]
  exact ⟨rfl, rfl, rfl, rfl⟩

/-- A word whose fields, as numbers, are those of a legal command is a legal word. -/
theorem legalWord_of_toNat_fields {cmd : CmdWord} (i : Instr) (hi : i.wellFormed = true)
    (hop : cmd.toNat / 4096 = (opcodeOf i).toNat) (ha : cmd.toNat / 256 % 16 = (aOperand i).toNat)
    (hz : cmd.toNat / 64 % 4 = 0) (hw : cmd.toNat % 64 = (wOperand i).toNat) : legalWord cmd = true := by
  rw [← toNat_opField] at hop
  rw [← toNat_aField] at ha
  rw [← toNat_zField] at hz
  rw [← toNat_wField] at hw
  exact legalWord_eq_true_iff.2 ⟨i, decodeWord_of_fields (BitVec.eq_of_toNat_eq hop) (BitVec.eq_of_toNat_eq ha)
    (BitVec.eq_of_toNat_eq hz) (BitVec.eq_of_toNat_eq hw), hi⟩

namespace Machine

theorem not_illegalWord_of_decodeWord {cmd : CmdWord} {i : Instr} (h : decodeWord cmd = .ok i)
    (hi : i.wellFormed = true) : ¬ illegalWord cmd := by
  obtain ⟨hop, ha, hz, hw⟩ := toNat_fields_of_decodeWord h
  rw [illegalWord, hop, ha, hz, hw]
  cases i with
  | wrr r | rdr r => cases r <;> revert hi <;> decide
  | _ => simp [opcodeOf, aOperand, wOperand]

/-- A word that breaks no clause of R65 is legal: by its operation code, the word of the command with its operands. -/
theorem legalWord_of_not_illegalWord {cmd : CmdWord} (h : ¬ illegalWord cmd) : legalWord cmd = true := by
  simp only [illegalWord, not_or, not_and, not_not, not_lt, List.mem_cons, List.not_mem_nil, or_false] at h
  obtain ⟨hop₁, hop₂, hz, hformatZ, hformatA, hwrr, hrdr⟩ := h
  have ha := toNat_aField cmd
  have hw := toNat_wField cmd
  obtain hop | hop | hop | hop | hop | hop | hop | hop | hop | hop :
      cmd.toNat / 4096 = 1 ∨ cmd.toNat / 4096 = 2 ∨ cmd.toNat / 4096 = 3 ∨ cmd.toNat / 4096 = 4 ∨
      cmd.toNat / 4096 = 5 ∨ cmd.toNat / 4096 = 6 ∨ cmd.toNat / 4096 = 7 ∨ cmd.toNat / 4096 = 8 ∨
      cmd.toNat / 4096 = 9 ∨ cmd.toNat / 4096 = 10 := by omega
  · exact legalWord_of_toNat_fields .clr rfl hop (hformatZ (by omega)).1 hz (hformatZ (by omega)).2
  · exact legalWord_of_toNat_fields .tag rfl hop (hformatZ (by omega)).1 hz (hformatZ (by omega)).2
  · exact legalWord_of_toNat_fields (.pack (aField cmd) (wField cmd)) rfl hop ha.symm hz hw.symm
  · exact legalWord_of_toNat_fields (.unpack (aField cmd) (wField cmd)) rfl hop ha.symm hz hw.symm
  · exact legalWord_of_toNat_fields .encode rfl hop (hformatZ (by omega)).1 hz (hformatZ (by omega)).2
  · exact legalWord_of_toNat_fields .decode rfl hop (hformatZ (by omega)).1 hz (hformatZ (by omega)).2
  · obtain ⟨hne, hle⟩ := hwrr hop
    obtain ⟨r, hr⟩ := exists_toNat_indexOfReg hle
    have hi : (Instr.wrr r).wellFormed = true := by
      cases r
      case tag => exact absurd hr hne
      all_goals rfl
    exact legalWord_of_toNat_fields (.wrr r) hi hop hr hz (hformatA (by omega))
  · obtain ⟨r, hr⟩ := exists_toNat_indexOfReg (hrdr hop)
    exact legalWord_of_toNat_fields (.rdr r) rfl hop hr hz (hformatA (by omega))
  · exact legalWord_of_toNat_fields (.wrb (aField cmd)) rfl hop ha.symm hz (hformatA (by omega))
  · exact legalWord_of_toNat_fields (.rdb (aField cmd)) rfl hop ha.symm hz (hformatA (by omega))

theorem legalWord_eq_false_iff {cmd : CmdWord} : legalWord cmd = false ↔ illegalWord cmd := by
  rw [← not_iff_not, Bool.not_eq_false]
  constructor
  · intro h
    obtain ⟨i, hd, hi⟩ := legalWord_eq_true_iff.1 h
    exact not_illegalWord_of_decodeWord hd hi
  · exact legalWord_of_not_illegalWord

/-! ### The tests of a command word -/

/-- The tests a command makes once it is not halted; they read its operands alone (R67, R150). -/
def checksOf : Instr → Except Cause Unit
  | .pack boff w => checkField boff.toNat w.toNat
  | .unpack boff w => checkField boff.toNat w.toNat
  | .wrb addr => checkAddr addr.toNat
  | .rdb addr => checkAddr addr.toNat
  | .wrr .tag => .error .illcmd
  | _ => .ok ()

/-- The tests a command word makes once the block is not halted: that it is a command, then the command's own (R158). -/
def checksOfWord (cmd : CmdWord) : Except Cause Unit :=
  match decodeWord cmd with
  | .ok i => checksOf i
  | .error _ => .error .illcmd

theorem bodyOf_of_checksOf_ok {i : Instr} (h : checksOf i = .ok ()) (s : State) :
    ∃ v, bodyOf i s = .ok (effectOf i s, v) := by
  cases i with
  | pack | unpack | wrb | rdb =>
    simp only [checksOf] at h
    simp [bodyOf, effectOf, h]
  | wrr r =>
    cases r
    case tag => cases h
    all_goals exact ⟨_, rfl⟩
  | _ => exact ⟨_, rfl⟩

theorem bodyOf_of_checksOf_error {i : Instr} {c : Cause} (h : checksOf i = .error c) (s : State) :
    bodyOf i s = .error c := by
  cases i with
  | pack | unpack | wrb | rdb =>
    simp only [checksOf] at h
    simp [bodyOf, h]
  | wrr r => cases r <;> cases h; rfl
  | _ => cases h

theorem checksOfWord_of_decodeWord {cmd : CmdWord} {i : Instr} (h : decodeWord cmd = .ok i) :
    checksOfWord cmd = checksOf i := by
  simp [checksOfWord, h]

theorem checksOfWord_of_illegalWord {cmd : CmdWord} (h : illegalWord cmd) : checksOfWord cmd = .error .illcmd := by
  cases hd : decodeWord cmd with
  | error => simp [checksOfWord, hd]
  | ok i =>
    have hi : ¬ i.wellFormed = true := fun hi => not_illegalWord_of_decodeWord hd hi h
    rw [checksOfWord_of_decodeWord hd]
    cases i with
    | wrr r => cases r <;> simp_all [Instr.wellFormed, checksOf]
    | _ => exact absurd rfl hi

/-- The checks of a field, its width in whole bytes once the first two are passed. -/
theorem checkField_eq (boff w : Nat) :
    checkField boff w =
      if w = 0 ∨ w % 4 ≠ 0 then .error .width
      else if w % 8 = 4 ∨ 32 < w then .error .unsup
      else if 11 < boff + w / 8 + 1 then .error .range
      else .ok () := by
  split_ifs with hwidth hunsup hrange
  · exact checkField_width hwidth
  · exact checkField_unsup hwidth hunsup
  · exact checkField_range hwidth hunsup (by omega)
  · exact checkField_pass hwidth hunsup (by omega)

theorem checkAddr_eq (a : Nat) : checkAddr a = if 10 < a then .error .range else .ok () := by
  split_ifs with h
  · exact checkAddr_range (not_le.2 h)
  · exact checkAddr_pass (not_lt.1 h)

/-- The tests of a word, in its numbers and in their order (R158): ILLCMD, WIDTH, UNSUP, RANGE. -/
theorem checksOfWord_eq (cmd : CmdWord) :
    checksOfWord cmd =
      let op := cmd.toNat / 4096
      let a := cmd.toNat / 256 % 16
      let w := cmd.toNat % 64
      if illegalWord cmd then .error .illcmd
      else if (op = 3 ∨ op = 4) ∧ (w = 0 ∨ w % 4 ≠ 0) then .error .width
      else if (op = 3 ∨ op = 4) ∧ (w % 8 = 4 ∨ 32 < w) then .error .unsup
      else if ((op = 3 ∨ op = 4) ∧ 11 < a + w / 8 + 1) ∨ ((op = 9 ∨ op = 10) ∧ 10 < a) then .error .range
      else .ok () := by
  by_cases hillegal : illegalWord cmd
  · simp only [if_pos hillegal, checksOfWord_of_illegalWord hillegal]
  · obtain ⟨i, hd, hi⟩ := legalWord_eq_true_iff.1 (legalWord_of_not_illegalWord hillegal)
    obtain ⟨hop, ha, -, hw⟩ := toNat_fields_of_decodeWord hd
    simp only [if_neg hillegal, checksOfWord_of_decodeWord hd, hop, ha, hw]
    cases i with
    | pack | unpack => simp [checksOf, opcodeOf, aOperand, wOperand, checkField_eq]
    | wrb | rdb => simp [checksOf, opcodeOf, aOperand, checkAddr_eq]
    | wrr r => cases r <;> simp_all [Instr.wellFormed, checksOf, opcodeOf]
    | _ => simp [checksOf, opcodeOf]

theorem checksOfWord_eq_illcmd_iff {cmd : CmdWord} : checksOfWord cmd = .error .illcmd ↔ illegalWord cmd := by
  refine ⟨fun h => ?_, checksOfWord_of_illegalWord⟩
  by_contra hlegal
  simp only [checksOfWord_eq, if_neg hlegal] at h
  split_ifs at h <;> cases h

/-! ### The step of a command word -/

section
variable {s : State} {cmd : CmdWord} {d : Word} {rest : List HostMove}

theorem step_halted (hm : s.host = .command cmd d :: rest) (hne : s.flt ≠ 0) :
    step s = .next { s with host := rest, din := d, answer := some ⟨7, 0⟩ } :=
  (step_of_command hm).trans (runCommand_halted _ hne)

/-- The first test that fires decides (R156, R158). -/
theorem step_faults {c : Cause} (hm : s.host = .command cmd d :: rest) (h0 : s.flt = 0)
    (hc : checksOfWord cmd = .error c) :
    step s = .next { s with host := rest, din := d, flt := c.code, answer := some ⟨c.code, 0⟩ } := by
  have hbody : bodyOfWord cmd { s with host := rest, din := d } = .error c := by
    unfold checksOfWord at hc
    unfold bodyOfWord
    cases hd : decodeWord cmd with
    | ok i => rw [hd] at hc; exact bodyOf_of_checksOf_error hc _
    | error => rw [hd] at hc; cases hc; rfl
  exact (step_of_command hm).trans (runCommand_error h0 hbody)

/-- With no test that fires the command completes (R158). -/
theorem step_completes (hm : s.host = .command cmd d :: rest) (h0 : s.flt = 0) (hc : checksOfWord cmd = .ok ()) :
    ∃ t, step s = .next t ∧ t.flt = 0 ∧ ∃ v, t.answer = some ⟨0, v⟩ := by
  cases hd : decodeWord cmd with
  | ok i =>
    have hi : checksOf i = .ok () := checksOfWord_of_decodeWord hd ▸ hc
    obtain ⟨v, hbody⟩ := bodyOf_of_checksOf_ok hi { s with host := rest, din := d }
    have hflt : (effectOf i { s with host := rest, din := d }).flt = s.flt := (bodyOf_keeps hbody).1
    exact ⟨_, (step_of_decoded hm hd).trans (exec_ok h0 hbody), hflt.trans h0, v, rfl⟩
  | error => simp [checksOfWord, hd] at hc

end

theorem code_eq_four_iff {c : Cause} : c.code = 4 ↔ c = .illcmd := by cases c <;> decide

/-- Settles O4: R65 in numbers is the decoder's refusal, and ILLCMD is the cause of no other test. -/
theorem illegalWordsFaultIllcmd : Obligations.IllegalWordsFaultIllcmd := by
  intro s cmd d rest hm h0
  refine ⟨fun h => step_faults hm h0 (checksOfWord_of_illegalWord h), fun h => ?_, legalWord_eq_false_iff⟩
  cases hc : checksOfWord cmd with
  | ok =>
    obtain ⟨t, ht, hflt, -⟩ := step_completes hm h0 hc
    exact ⟨t, ht, by simp [hflt]⟩
  | error c =>
    refine ⟨_, step_faults hm h0 hc, fun hcode => h ?_⟩
    rwa [code_eq_four_iff.1 hcode, checksOfWord_eq_illcmd_iff] at hc

/-- Settles O8: halted or not, then the tests of the word in their order. -/
theorem firstTestThatFiresDecides : Obligations.FirstTestThatFiresDecides := by
  intro s cmd d rest hm op a w
  have hc := checksOfWord_eq cmd
  by_cases h0 : s.flt = 0
  · simp only at hc
    simp only [h0, ne_eq, not_true, if_false]
    split_ifs at hc ⊢
    · exact ⟨_, step_faults hm h0 hc, rfl⟩
    · exact ⟨_, step_faults hm h0 hc, rfl⟩
    · exact ⟨_, step_faults hm h0 hc, rfl⟩
    · exact ⟨_, step_faults hm h0 hc, rfl⟩
    · exact step_completes hm h0 hc
  · exact ⟨_, step_halted hm h0, by rw [if_pos h0]⟩

/-! ### Fault entry, the halted block, what a fault depends on -/

theorem bodyOfWord_encodeWord (i : Instr) : bodyOfWord (encodeWord i) = bodyOf i := by
  funext s
  simp [bodyOfWord, decodeWord_encodeWord]

/-- Settles O9: a command that changes `flt` is one that enters a fault, and its next state is that of `raise`. -/
theorem faultEntryChangesNothingElse : Obligations.FaultEntryChangesNothingElse := by
  intro i s t h hne
  rw [exec_eq, ← bodyOfWord_encodeWord] at h
  obtain ⟨h0, c, rfl⟩ := raise_of_flt_changed h hne
  exact ⟨h0, ⟨c, rfl⟩, code_values c, rfl⟩

/-- Settles O10: the halted test comes first for every word and for every command; an idle step keeps `flt` too. -/
theorem haltedCommandsDoNothing : Obligations.HaltedCommandsDoNothing := by
  refine ⟨fun s cmd d rest hne hm => step_halted hm hne,
    fun i s hne => (exec_eq i s).trans (runCommand_halted _ hne), fun s t hne h hreset => ?_⟩
  have hflt : t.flt = s.flt := by
    obtain ⟨-, rfl⟩ | ⟨rest, hm, -⟩ | ⟨cmd, d, rest, hm, -⟩ := step_next_by_move h
    · rfl
    · exact absurd (by simp [hm]) hreset
    · cases (step_halted hm hne).symm.trans h
      rfl
  exact ⟨hflt, hflt⟩

/-- Settles O12: halted, faulting or completing, as `flt` and the tests of the word say. -/
theorem faultsDependOnTheWordAlone : Obligations.FaultsDependOnTheWordAlone := by
  intro s₁ s₂ t₁ t₂ cmd d₁ d₂ rest₁ rest₂ hm₁ hm₂ hflt h₁ h₂
  by_cases h0 : s₁.flt = 0
  · have h0' : s₂.flt = 0 := hflt ▸ h0
    cases hc : checksOfWord cmd with
    | ok =>
      obtain ⟨u₁, hu₁, hu₁flt, v₁, hu₁answer⟩ := step_completes hm₁ h0 hc
      obtain ⟨u₂, hu₂, hu₂flt, v₂, hu₂answer⟩ := step_completes hm₂ h0' hc
      cases hu₁.symm.trans h₁
      cases hu₂.symm.trans h₂
      simp [hu₁flt, hu₂flt, hu₁answer, hu₂answer]
    | error c =>
      cases (step_faults hm₁ h0 hc).symm.trans h₁
      cases (step_faults hm₂ h0' hc).symm.trans h₂
      exact ⟨rfl, rfl⟩
  · cases (step_halted hm₁ h0).symm.trans h₁
    cases (step_halted hm₂ (hflt ▸ h0)).symm.trans h₂
    exact ⟨hflt, rfl⟩

end Machine

end Sys2Proof
end

section
/-! Reset (70_reset_and_hazards.md): what a reset request sets, and that nothing else leaves the halted state (R157,
R180). -/

namespace Sys2Proof.Machine

theorem halted_iff (s : State) : s.halted = true ↔ s.flt ≠ 0 := bne_iff_ne

/-- A halted block stays halted over every step that takes no reset request (R157, R160). -/
theorem step_keeps_halted {s t : State} (hs : s.halted = true) (h : step s = .next t)
    (hreset : s.host.head? ≠ some .reset) : t.halted = true := by
  rw [halted_iff] at hs ⊢
  obtain ⟨-, -, hkept⟩ := haltedCommandsDoNothing
  obtain ⟨-, hflt⟩ := hkept s t hs h hreset
  rwa [hflt]

/-- Settles O14: the state a reset request leaves is that of `takeReset`, halted or not; no other step leaves the halted
state. -/
theorem resetRequestResetsTheBlock : Obligations.ResetRequestResetsTheBlock := by
  refine ⟨fun s rest hm => ?_, ?_, fun s t hs h ht => ?_⟩
  · exact ⟨_, step_of_reset hm, Memory.read_zero, rfl, rfl, rfl, rfl⟩
  · obtain ⟨hbuf, hflt, -, hcursor⟩ := powerOnStateIsIdleAndZero
    exact ⟨hbuf, hflt, hcursor⟩
  · by_contra hreset
    exact Bool.false_ne_true (ht.symm.trans (step_keeps_halted hs h hreset))

end Sys2Proof.Machine
end
